-- ==== Sys2Proof/Word.lean ====
section
/-! DEFINITION. The plain value types of the block: bytes, pin levels, pins, directions, digit indices, digit counts,
and the two small fixed containers (two pins, four digits). -/

namespace Sys2Proof

/-- A byte on the wire, a SegmentCode, an 8-bit operand (R80, R86, R92). -/
abbrev Byte := BitVec 8

/-- A digit index, logical or physical, and an address of the DIG space: 0..3 (R51, R53). -/
abbrev Digit := Fin 4

/-- The level of a wire or of an output latch: L or H (R11). -/
inductive Level where
  | low
  | high
  deriving DecidableEq, Repr, Inhabited

/-- Level H is bit value 1 and L is 0 (R11, R114). -/
def Level.ofBit (b : Bool) : Level := if b then .high else .low

/-- The two pins: the clock line and the data line (R11). -/
inductive Pin where
  | clk
  | dio
  deriving DecidableEq, Repr

/-- The direction of a pin: OUT or IN (R37). -/
inductive Dir where
  | out
  | inp
  deriving DecidableEq, Repr, Inhabited

/-- The addressing mode (R150). -/
inductive AddrMode where
  | fixed
  | autoIncrement
  deriving DecidableEq, Repr, Inhabited

/-- A number of configured digits: 1, 2, 3 or 4 (R22). -/
inductive DigitCount where
  | one
  | two
  | three
  | four
  deriving DecidableEq, Repr, Inhabited

/-- The number itself. -/
def DigitCount.toNat : DigitCount → Nat
  | .one => 1
  | .two => 2
  | .three => 3
  | .four => 4

/-- One value for each pin. -/
structure Pair (α : Type) where
  clk : α
  dio : α
  deriving DecidableEq, Repr, Inhabited

def Pair.get {α : Type} (x : Pair α) : Pin → α
  | .clk => x.clk
  | .dio => x.dio

def Pair.set {α : Type} (x : Pair α) (p : Pin) (v : α) : Pair α :=
  match p with
  | .clk => { x with clk := v }
  | .dio => { x with dio := v }

/-- One value for each of the four digits. -/
structure Quad (α : Type) where
  d0 : α
  d1 : α
  d2 : α
  d3 : α
  deriving DecidableEq, Repr, Inhabited

def Quad.get {α : Type} (q : Quad α) (i : Digit) : α :=
  match i with
  | 0 => q.d0
  | 1 => q.d1
  | 2 => q.d2
  | 3 => q.d3

def Quad.set {α : Type} (q : Quad α) (i : Digit) (v : α) : Quad α :=
  match i with
  | 0 => { q with d0 := v }
  | 1 => { q with d1 := v }
  | 2 => { q with d2 := v }
  | 3 => { q with d3 := v }

def Quad.toList {α : Type} (q : Quad α) : List α := [q.d0, q.d1, q.d2, q.d3]

end Sys2Proof
end

