-- ==== Sys2Proof/Config.lean ====
section
/-! DEFINITION. The build parameters of an instance of the block (R6, R224), what makes them legal (R6, R63, R145, R180),
and the free values: what the spec leaves open, as constants without a body. -/

namespace Sys2Proof

/-- The number of entries of the character table (R140). -/
def tableSize : Nat := 43

/-- The parameters R6 calls OPEN. They are fixed when the instance is built and no operation changes them (R224, R150). -/
structure Config where
  /-- `MODE` (R150). -/
  mode : AddrMode
  /-- `DIGITMAP`: absent means identity (R34, R63). -/
  digitMap : Option (Quad Digit)
  /-- `CHARTAB`, index 0 first (R140). -/
  chartab : List Byte
  /-- `BLANK_IDX` (R141, R145). -/
  blankIdx : Nat
  /-- `T_BIT`, in microseconds (R121, R215). -/
  tBit : Nat
  /-- `QUIRK_REQ` (R24). -/
  quirkReq : Bool
  /-- `DP_ON_CODE` (R180). -/
  dpOnCode : Byte
  /-- `HAS_TEST` (R181). -/
  hasTest : Bool
  /-- `PIN_CLK`, as the GPIO capability names it (R210). -/
  pinClk : Nat
  /-- `PIN_DIO`. -/
  pinDio : Nat
  deriving DecidableEq, Repr, Inhabited

/-- The bytes with exactly one bit set. -/
def oneBitBytes : List Byte := [0x01, 0x02, 0x04, 0x08, 0x10, 0x20, 0x40, 0x80]

/-- The seven single-segment masks (R141). -/
def segmentMasks : List Byte := [0x01, 0x02, 0x04, 0x08, 0x10, 0x20, 0x40]

/-- A map is present only under Fixed and is a permutation of 0..3 (R6, R63). -/
def Config.mapWf (c : Config) : Bool :=
  match c.digitMap with
  | none => true
  | some m => (c.mode == .fixed) && decide m.toList.Nodup

/-- The constraints of R145 on the table: (1), (2), (3), (5); constraint (4) is about glyphs, not about bit values. -/
def Config.tableWf (c : Config) : Bool :=
  (c.chartab.length == tableSize) && c.chartab.all (fun e => decide (e.toNat < 0x80)) &&
  decide (16 ≤ c.blankIdx) && decide (c.blankIdx < tableSize) && (c.chartab[c.blankIdx]? == some 0) &&
  segmentMasks.all (fun e => (c.chartab.drop 16).contains e)

/-- A legal choice of the parameters (R6). -/
def Config.wf (c : Config) : Bool :=
  c.mapWf && c.tableWf && decide (0 < c.tBit) && oneBitBytes.contains c.dpOnCode && (c.pinClk != c.pinDio)

/-- A legal choice that shows there is one. Nothing rests on it: see `Config.build`. -/
def Config.witness : Config where
  mode := .fixed
  digitMap := none
  chartab := List.replicate 16 0 ++ segmentMasks ++ List.replicate 20 0
  blankIdx := 42
  tBit := 1
  quirkReq := false
  dpOnCode := 0x80
  hasTest := false
  pinClk := 0
  pinDio := 1

/-- FREE VALUE (log entry 2). Some choice of the parameters. -/
opaque Config.someBuild : Config

/-- The build that `State.reset` is an instance of: some legal choice of the parameters, nothing else known of it. -/
def Config.build : Config := if Config.someBuild.wf then Config.someBuild else Config.witness

/-- FREE VALUE (log entry 4). The level of the data line at the k-th sample that the script `Env.answers` does not
answer: the environment's answer (R71, R118). -/
opaque Config.answer : Nat → Level

/-! FREE VALUES (log entry 3). What each register holds before anything has written it: R42 gives no value and
forbids assuming one. -/

opaque Config.resetNd : DigitCount
opaque Config.resetBr : BitVec 3
opaque Config.resetQk : Bool
opaque Config.resetDr : Digit → Byte
opaque Config.resetSr : Byte
opaque Config.resetBc : Fin 9
opaque Config.resetAck : Bool
opaque Config.resetNak : Bool
opaque Config.resetDaddr : Digit
opaque Config.resetLat : Pin → Level
opaque Config.resetDirr : Pin → Dir
opaque Config.resetRes : Byte

end Sys2Proof
end

