-- ==== Sys2Proof/Syntax.lean ====
section
/-! DEFINITION. The instructions: one constructor for each row of spec/opcode_table.json. The first six are the wire bytes,
which the display device takes from the wire (R81 to R85); the others are the host operations, which the block takes
from its ports (R90). Operand widths are those of R90. -/

namespace Sys2Proof

inductive Instr where
  /-- `W.AUTO`: wire byte 0x40 (R81). -/
  | wAuto
  /-- `W.FIXED`: wire byte 0x44 (R82). -/
  | wFixed
  /-- `W.OFF`: wire byte 0x80 (R83). -/
  | wOff
  /-- `W.ON level`: wire bytes 0x88 to 0x8F (R84). -/
  | wOn (level : BitVec 3)
  /-- `W.ADDR i`: wire bytes 0xC0 to 0xC3 (R85). -/
  | wAddr (i : Digit)
  /-- `W.DATA v`: any byte after an address byte in the same transaction (R85, R87). -/
  | wData (v : Byte)
  /-- `START` (R111). -/
  | start
  /-- `STOP` (R112). -/
  | stop
  /-- `WRBYTE v` (R113). -/
  | wrbyte (v : Byte)
  /-- `BITDELAY` (R121). -/
  | bitdelay
  /-- `LOOKUP idx` (R142). -/
  | lookup (idx : Byte)
  /-- `SENDCMD c` (R154). -/
  | sendcmd (c : Byte)
  /-- `WRDIGIT d, v` (R155). -/
  | wrdigit (d : Digit) (v : Byte)
  /-- `WRRUN d, [v0, …]` (R156). -/
  | wrrun (d : Digit) (codes : List Byte)
  /-- `BEGIN n, b` (R171). -/
  | beginDisp (n b : Byte)
  /-- `DISPOFF` (R172). -/
  | dispoff
  /-- `DISPCLEAR` (R173). -/
  | dispclear
  /-- `DISPBRIGHT l` (R174). -/
  | dispbright (l : Byte)
  /-- `DISPCHAR d, v, raw` (R175). -/
  | dispchar (d v : Byte) (raw : Bool)
  /-- `DISPINT8 s, v, dec` (R176). -/
  | dispint8 (start v : Byte) (dec : Bool)
  /-- `DISPINT12 s, v, dec` (R177). -/
  | dispint12 (start : Byte) (v : BitVec 16) (dec : Bool)
  /-- `DISPINT16 s, v, dec` (R178). -/
  | dispint16 (start : Byte) (v : BitVec 16) (dec : Bool)
  /-- `DISPDP on` (R179). -/
  | dispdp (on : Bool)
  /-- `DISPTEST on` (R181). -/
  | disptest (on : Bool)
  deriving DecidableEq, Repr

/-- The host operation word, the values on the input ports while `op_valid` is 1 (R41, R91). -/
structure OpWord where
  sel : BitVec 5
  a : Byte
  b : BitVec 16
  f : Bool
  codes : Quad Byte
  deriving DecidableEq, Repr

/-- Where a wire byte stands in its transaction; it decides the byte's meaning (R87). -/
inductive Pos where
  /-- The first byte: a command or an address. -/
  | first
  /-- A byte after an address byte. -/
  | data
  deriving DecidableEq, Repr

/-- An encoded instruction: a host operation word, or a byte on the wire with its position. -/
inductive Encoded where
  | op (w : OpWord)
  | wire (p : Pos) (b : Byte)
  deriving DecidableEq, Repr

/-- The mnemonic, as the opcode table spells it. -/
def Instr.mnemonic : Instr → String
  | .wAuto => "W.AUTO"
  | .wFixed => "W.FIXED"
  | .wOff => "W.OFF"
  | .wOn _ => "W.ON"
  | .wAddr _ => "W.ADDR"
  | .wData _ => "W.DATA"
  | .start => "START"
  | .stop => "STOP"
  | .wrbyte _ => "WRBYTE"
  | .bitdelay => "BITDELAY"
  | .lookup _ => "LOOKUP"
  | .sendcmd _ => "SENDCMD"
  | .wrdigit _ _ => "WRDIGIT"
  | .wrrun _ _ => "WRRUN"
  | .beginDisp _ _ => "BEGIN"
  | .dispoff => "DISPOFF"
  | .dispclear => "DISPCLEAR"
  | .dispbright _ => "DISPBRIGHT"
  | .dispchar _ _ _ => "DISPCHAR"
  | .dispint8 _ _ _ => "DISPINT8"
  | .dispint12 _ _ _ => "DISPINT12"
  | .dispint16 _ _ _ => "DISPINT16"
  | .dispdp _ => "DISPDP"
  | .disptest _ => "DISPTEST"

/-- The operands as R93 writes them: decimal numbers, `true` or `false`, a code list in square brackets. -/
def Instr.operandTexts : Instr → List String
  | .wAuto | .wFixed | .wOff | .start | .stop | .bitdelay | .dispoff | .dispclear => []
  | .wOn l => [toString l.toNat]
  | .wAddr i => [toString i.val]
  | .wData v | .wrbyte v | .lookup v | .sendcmd v | .dispbright v => [toString v.toNat]
  | .wrdigit d v => [toString d.val, toString v.toNat]
  | .wrrun d codes => [toString d.val, "[" ++ String.intercalate ", " (codes.map fun v => toString v.toNat) ++ "]"]
  | .beginDisp n b => [toString n.toNat, toString b.toNat]
  | .dispchar d v raw => [toString d.toNat, toString v.toNat, toString raw]
  | .dispint8 s v dec => [toString s.toNat, toString v.toNat, toString dec]
  | .dispint12 s v dec => [toString s.toNat, toString v.toNat, toString dec]
  | .dispint16 s v dec => [toString s.toNat, toString v.toNat, toString dec]
  | .dispdp on => [toString on]
  | .disptest on => [toString on]

/-- The textual form: the mnemonic, then the operands separated by commas (R93). -/
def Instr.text (i : Instr) : String :=
  match i.operandTexts with
  | [] => i.mnemonic
  | ts => i.mnemonic ++ " " ++ String.intercalate ", " ts

end Sys2Proof
end

