-- ==== Sys2Proof/WellFormed.lean ====
section
/-! DEFINITION. Well-formed instructions. Every operand but WRRUN's has exactly the width its row gives it, by its type;
WRRUN's code list has to be non-empty and to fit behind its start digit (R59, R156). -/

namespace Sys2Proof

/-- `1 <= k` and `d + k <= 4` (R59). -/
def runFits (d : Digit) (codes : List Byte) : Bool :=
  decide (1 ≤ codes.length) && decide (d.val + codes.length ≤ 4)

def Instr.wellFormed : Instr → Bool
  | .wAuto => true
  | .wFixed => true
  | .wOff => true
  | .wOn _ => true
  | .wAddr _ => true
  | .wData _ => true
  | .start => true
  | .stop => true
  | .wrbyte _ => true
  | .bitdelay => true
  | .lookup _ => true
  | .sendcmd _ => true
  | .wrdigit _ _ => true
  | .wrrun d codes => runFits d codes
  | .beginDisp _ _ => true
  | .dispoff => true
  | .dispclear => true
  | .dispbright _ => true
  | .dispchar _ _ _ => true
  | .dispint8 _ _ _ => true
  | .dispint12 _ _ _ => true
  | .dispint16 _ _ _ => true
  | .dispdp _ => true
  | .disptest _ => true

end Sys2Proof
end

