-- ==== Sys2Proof/Decode.lean ====
section
/-! DEFINITION. The decoder, total on every host operation word and every wire byte, rejecting by name; then the encoder.
A wire byte is read by its position (R87); a host operation word by `op_sel` (R90), with the operand bits above the listed
width required to be 0 and operands a row does not list ignored (R91). -/

namespace Sys2Proof

/-- `SET_AUTO` (R81). -/
def setAuto : Byte := 0x40
/-- `SET_FIXED` (R82). -/
def setFixed : Byte := 0x44
/-- `DISP_OFF` (R83). -/
def dispOff : Byte := 0x80
/-- `ON_BASE` (R84). -/
def onBase : Byte := 0x88
/-- `BASE_ADDR` (R85). -/
def baseAddr : Byte := 0xC0

/-- Why an encoding is no instruction. -/
inductive DecodeError where
  /-- `opsel` 0x12 to 0x1F (R98). -/
  | unassignedOpsel (sel : BitVec 5)
  /-- An operand bit above the listed width is 1 (R91). -/
  | strayOperandBits
  /-- WRRUN with k of 5, 6 or 7: `op_codes` has four entries (R91, R156). -/
  | runTooLong
  /-- A first byte outside the table (R95). -/
  | unlistedWireByte (b : Byte)
  deriving DecidableEq, Repr

abbrev Decoded := Except DecodeError Instr

/-- The operand bits above the listed width must be 0 (R91). -/
def ifNoStrayBits (ok : Bool) (i : Instr) : Decoded := if ok then .ok i else .error .strayOperandBits

/-- `op_b[7:0]`. -/
def OpWord.bLow (w : OpWord) : Byte := w.b.setWidth 8

/-- `op_b[15:8]` is 0. -/
def OpWord.bIsByte (w : OpWord) : Bool := decide (w.b.toNat < 0x100)

/-- `op_a[7:2]` is 0. -/
def OpWord.aIsDigit (w : OpWord) : Bool := decide (w.a.toNat < 4)

/-- `op_a[1:0]`. -/
def OpWord.aDigit (w : OpWord) : Digit := Fin.ofNat 4 w.a.toNat

/-- The row of WRRUN (R90, R156): k is `op_b[2:0]`, the codes are `op_codes[0..k-1]`. -/
def decodeRun (w : OpWord) : Decoded :=
  if w.aIsDigit && decide (w.b.toNat < 8) then
    if w.b.toNat ≤ 4 then .ok (.wrrun w.aDigit (w.codes.toList.take w.b.toNat)) else .error .runTooLong
  else .error .strayOperandBits

/-- A host operation word (R90, R91). -/
def decodeOp (w : OpWord) : Decoded :=
  match w.sel.toNat with
  | 0x00 => .ok .start
  | 0x01 => .ok .stop
  | 0x02 => .ok (.wrbyte w.a)
  | 0x03 => .ok .bitdelay
  | 0x04 => .ok (.lookup w.a)
  | 0x05 => .ok (.sendcmd w.a)
  | 0x06 => ifNoStrayBits (w.aIsDigit && w.bIsByte) (.wrdigit w.aDigit w.bLow)
  | 0x07 => decodeRun w
  | 0x08 => ifNoStrayBits w.bIsByte (.beginDisp w.a w.bLow)
  | 0x09 => .ok .dispoff
  | 0x0A => .ok .dispclear
  | 0x0B => .ok (.dispbright w.a)
  | 0x0C => ifNoStrayBits w.bIsByte (.dispchar w.a w.bLow w.f)
  | 0x0D => ifNoStrayBits w.bIsByte (.dispint8 w.a w.bLow w.f)
  | 0x0E => .ok (.dispint12 w.a w.b w.f)
  | 0x0F => .ok (.dispint16 w.a w.b w.f)
  | 0x10 => .ok (.dispdp w.f)
  | 0x11 => .ok (.disptest w.f)
  | _ => .error (.unassignedOpsel w.sel)

/-- A wire byte (R80 to R85, R87, R95). -/
def decodeWire (p : Pos) (b : Byte) : Decoded :=
  match p with
  | .data => .ok (.wData b)
  | .first =>
    if b = setAuto then .ok .wAuto
    else if b = setFixed then .ok .wFixed
    else if b = dispOff then .ok .wOff
    else if b &&& 0xF8 = onBase then .ok (.wOn (b.setWidth 3))
    else if b &&& 0xFC = baseAddr then .ok (.wAddr (Fin.ofNat 4 (b &&& 0x03).toNat))
    else .error (.unlistedWireByte b)

def decode : Encoded → Decoded
  | .op w => decodeOp w
  | .wire p b => decodeWire p b

/-! ## The table's bits -/

/-- The 62 bits of a host operation word packed in the order R91 lists them, each field on a byte boundary
(DESIGN CHOICE, log entry 6): `op_sel` in bits 4:0, `op_a` in 15:8, `op_b` in 31:16, `op_f` in bit 32, `op_codes[i]` in
bits 47+8i:40+8i. -/
def OpWord.ofBits (w : Nat) : OpWord where
  sel := BitVec.ofNat 5 w
  a := BitVec.ofNat 8 (w / 2 ^ 8)
  b := BitVec.ofNat 16 (w / 2 ^ 16)
  f := w.testBit 32
  codes := ⟨BitVec.ofNat 8 (w / 2 ^ 40), BitVec.ofNat 8 (w / 2 ^ 48), BitVec.ofNat 8 (w / 2 ^ 56), BitVec.ofNat 8 (w / 2 ^ 64)⟩

/-- What the table's bits stand for: a lowest byte with bits 7:5 zero is an `op_sel`, any other byte alone is the first
byte of a transaction. No listed wire byte is below 0x20, so the two never meet (R80, R90). A W.DATA byte has no pattern
and is not reached this way (R87). -/
def Encoded.ofTableBits (w : Nat) : Option Encoded :=
  if w % 256 < 32 then some (.op (OpWord.ofBits w))
  else if w < 256 then some (.wire .first (BitVec.ofNat 8 w))
  else none

/-- The instruction the decoder reads from an instruction whose bits, numbered as the opcode table numbers them, are
`w`. -/
def decodeTableWord (nbits w : Nat) : Option Instr :=
  if w < 2 ^ nbits then
    match Encoded.ofTableBits w with
    | some e =>
      match decode e with
      | .ok i => some i
      | .error _ => none
    | none => none
  else none

/-! ## The encoder -/

/-- An operation word with every operand zero. -/
def OpWord.bare (sel : BitVec 5) : OpWord := ⟨sel, 0, 0, false, ⟨0, 0, 0, 0⟩⟩

/-- A digit as an 8-bit operand. -/
def digitByte (d : Digit) : Byte := BitVec.ofNat 8 d.val

/-- `op_codes` holding a code list, unused entries 0. -/
def codesOf (vs : List Byte) : Quad Byte := ⟨vs.getD 0 0, vs.getD 1 0, vs.getD 2 0, vs.getD 3 0⟩

/-- The encoding of an instruction (R81 to R85, R90, R91). -/
def encode : Instr → Encoded
  | .wAuto => .wire .first setAuto
  | .wFixed => .wire .first setFixed
  | .wOff => .wire .first dispOff
  | .wOn l => .wire .first (onBase ||| l.setWidth 8)
  | .wAddr i => .wire .first (baseAddr ||| digitByte i)
  | .wData v => .wire .data v
  | .start => .op (.bare 0x00)
  | .stop => .op (.bare 0x01)
  | .wrbyte v => .op { OpWord.bare 0x02 with a := v }
  | .bitdelay => .op (.bare 0x03)
  | .lookup idx => .op { OpWord.bare 0x04 with a := idx }
  | .sendcmd c => .op { OpWord.bare 0x05 with a := c }
  | .wrdigit d v => .op { OpWord.bare 0x06 with a := digitByte d, b := v.setWidth 16 }
  | .wrrun d vs => .op { OpWord.bare 0x07 with a := digitByte d, b := BitVec.ofNat 16 vs.length, codes := codesOf vs }
  | .beginDisp n b => .op { OpWord.bare 0x08 with a := n, b := b.setWidth 16 }
  | .dispoff => .op (.bare 0x09)
  | .dispclear => .op (.bare 0x0A)
  | .dispbright l => .op { OpWord.bare 0x0B with a := l }
  | .dispchar d v raw => .op { OpWord.bare 0x0C with a := d, b := v.setWidth 16, f := raw }
  | .dispint8 s v dec => .op { OpWord.bare 0x0D with a := s, b := v.setWidth 16, f := dec }
  | .dispint12 s v dec => .op { OpWord.bare 0x0E with a := s, b := v, f := dec }
  | .dispint16 s v dec => .op { OpWord.bare 0x0F with a := s, b := v, f := dec }
  | .dispdp on => .op { OpWord.bare 0x10 with f := on }
  | .disptest on => .op { OpWord.bare 0x11 with f := on }

end Sys2Proof
end

