-- ==== Sys2Proof/Machine/State.lean ====
section
/-! DEFINITION. The state of the machine as plain data: the block (R20), its ports (R41), the environment's answers (R71),
and the wire with the reference device at its end (R65 to R71); why a step can refuse; the state at reset (R42, R220). -/

namespace Sys2Proof.Machine

/-- A call of the GPIO capability; the alphabet of the trace (R11, R210). -/
inductive Event where
  /-- `DIR(p, m)` (R211). -/
  | dir (p : Pin) (m : Dir)
  /-- `WR(p, l)` (R212). -/
  | wr (p : Pin) (l : Level)
  /-- `RD(p)=l` (R213). -/
  | rd (p : Pin) (l : Level)
  /-- `DLY(n)` (R214). -/
  | dly (n : Nat)
  deriving DecidableEq, Repr

/-- One entry of an operation's list: a GPIO event, or a silent update of registers between two events. The lists are
the pseudocode of R111 to R181 line by line. -/
inductive Micro where
  /-- `DIR(p, m)`. -/
  | dir (p : Pin) (m : Dir)
  /-- `WR(p, l)` with a level known beforehand. -/
  | wr (p : Pin) (l : Level)
  /-- `SR <- v ; BC <- 0` (R113). -/
  | loadSr (v : Byte)
  /-- `WR(DIO, H if SR[0] = 1 else L)` (R114). -/
  | wrBit
  /-- `SR <- SR >> 1 ; BC <- BC + 1` (R113). -/
  | shiftSr
  /-- `DLY(T_BIT)` (R117, R121). -/
  | dly
  /-- `a <- RD(DIO)`, `ACK`, `NAK` (R118). -/
  | sample
  /-- `if a = L: WR(DIO, L)` (R119). -/
  | drive
  /-- `DADDR <- p` (R153). -/
  | setDaddr (p : Digit)
  /-- `DADDR <- (DADDR + 1) mod 4` (R156). -/
  | incDaddr
  /-- `DR[i] <- v` (R182). -/
  | setDr (i : Digit) (v : Byte)
  /-- `BR <- l` (R174). -/
  | setBr (l : BitVec 3)
  /-- `ND <- n` (R171). -/
  | setNd (n : DigitCount)
  /-- `QK <- q` (R171). -/
  | setQk (q : Bool)
  /-- `INIT <- 1` (R171). -/
  | setInit
  /-- `NAK <- 0` (R171). -/
  | clrNak
  /-- The result of LOOKUP on the port `res` (R41). -/
  | ret (v : Byte)
  /-- The result of WRBYTE on the port `res`, bit 0 = ACK (R41). -/
  | retAck
  /-- START begins, and with it a transaction (R67, R230). -/
  | busStart
  /-- A byte has been sent to the device (R67). -/
  | busByte (v : Byte)
  /-- The device has seen STOP (R67). -/
  | busStop
  /-- The pins are about to become outputs (R222), or to be clocked for a byte (R113). -/
  | busGlitch
  deriving DecidableEq, Repr

/-- `SEQ` (R35): idle, or the operation in progress with the number of its events already emitted; `rest` is what is
left of its list. -/
inductive Seq where
  | idle
  | busy (op : Instr) (n : Nat) (rest : List Micro)
  deriving DecidableEq, Repr

/-- Mode, configuration and shadow registers (R21 to R28). -/
structure Controller where
  /-- `INIT` (R21). -/
  init : Bool
  /-- `ND` (R22). -/
  nd : DigitCount
  /-- `BR` (R23). -/
  br : BitVec 3
  /-- `QK` (R24). -/
  qk : Bool
  /-- `DR[0..3]` (R25 to R28). -/
  dr : Quad Byte
  deriving DecidableEq, Repr

/-- The registers of the protocol engine (R29 to R33). -/
structure Engine where
  /-- `SR` (R29). -/
  sr : Byte
  /-- `BC`, 0..8 (R30). -/
  bc : Fin 9
  /-- `ACK` (R31). -/
  ack : Bool
  /-- `NAK` (R32). -/
  nak : Bool
  /-- `DADDR` (R33). -/
  daddr : Digit
  deriving DecidableEq, Repr

/-- The pin registers (R36, R37). -/
structure Pins where
  /-- `LAT[p]`. -/
  lat : Pair Level
  /-- `DIRR[p]`. -/
  dirr : Pair Dir
  deriving DecidableEq, Repr

/-- The host's side of the ports (R41): the operations it presents, in order, and the result port. -/
structure Port where
  /-- The operation words the host presents, the next one first; `op_valid` is 1 while there is one. -/
  ops : List OpWord
  /-- `res`: the result of the last LOOKUP or WRBYTE the host issued. -/
  res : Byte
  deriving DecidableEq, Repr

/-- The environment's answers at the acknowledgement samples (R71): first those of the script, then free ones. -/
structure Env where
  /-- The answers the environment will give next. -/
  answers : List Level
  /-- How many samples the script has not answered. -/
  asked : Nat
  deriving DecidableEq, Repr

/-- The device's display memory, the DIG space (R51): address i in 0..3 and its byte, addresses strictly rising; an
address not listed is unknown (R66). -/
abbrev Memory := List Host.Cell

/-- The reference device (R66). `none` is the spec's own *unknown*. -/
structure Device where
  /-- `dev_mode`. -/
  mode : Option AddrMode
  /-- `dev_ptr`. -/
  ptr : Option Digit
  /-- `dev_mem`. -/
  mem : Memory
  /-- `dev_on`. -/
  on : Option Bool
  /-- `dev_br`. -/
  br : Option (BitVec 3)
  deriving DecidableEq, Repr

/-- Before anything is sent, every element is unknown (R66). -/
def Device.unknown : Device := ⟨none, none, [], none, none⟩

/-- The framing on the wire (R67): no transaction open, or one with the bytes sent since its START, each with its
acknowledgement. -/
inductive Bus where
  | closed
  | opened (bytes : List (Byte × Bool))
  deriving DecidableEq, Repr

/-- The wire and what hangs on it. -/
structure Wire where
  bus : Bus
  /-- What is left of the transaction the device is taking: the data bytes it has not yet taken. -/
  cur : List Byte
  /-- Clean transactions the device has not yet begun to take, each a first byte and its further bytes (R67). -/
  rx : List (Byte × List Byte)
  dev : Device
  deriving DecidableEq, Repr

/-- The machine's state. -/
structure State where
  /-- The build parameters (R6), the same in every state of a run. -/
  cfg : Config
  ctl : Controller
  eng : Engine
  pins : Pins
  /-- `SEQ` (R35). -/
  seq : Seq
  /-- Everything the block has emitted, oldest first (R11, R20). -/
  trace : List Event
  port : Port
  env : Env
  wire : Wire
  deriving DecidableEq, Repr

/-- There is no fault: "There are no fatal conditions and no retries" (R9, R200). Safe: nothing raises one. -/
inductive Fault where
  deriving DecidableEq, Repr

/-- What the model refuses (R208). Each is safe: it errs toward unprovable. -/
inductive Refusal where
  /-- An instruction without a meaning; no arm of `exec` answers it. -/
  | notModelled (mnemonic : String)
  /-- SENDCMD, WRDIGIT, WRRUN or a display operation other than BEGIN with `INIT = 0`. -/
  | notReady
  /-- WRDIGIT under AutoIncrement, WRRUN under Fixed. -/
  | wrongMode
  /-- WRRUN with k = 0 or d + k > 4. -/
  | outOfBounds
  /-- DISPTEST when `HAS_TEST` is false. -/
  | noTest
  /-- A host operation word the decoder rejects (R91, R98); raised by `step`. -/
  | badWord (e : DecodeError)
  deriving DecidableEq, Repr

abbrev Result := Host.Outcome State Fault Refusal

/-- The state before `begin` (R42, R220, R221): `INIT = 0`, `SEQ` idle, nothing emitted, nothing presented, the device
unknown; every register at the free value log entry 3 names. -/
def State.reset : State where
  cfg := Config.build
  ctl :=
    { init := false, nd := Config.resetNd, br := Config.resetBr, qk := Config.resetQk,
      dr := ⟨Config.resetDr 0, Config.resetDr 1, Config.resetDr 2, Config.resetDr 3⟩ }
  eng :=
    { sr := Config.resetSr, bc := Config.resetBc, ack := Config.resetAck, nak := Config.resetNak,
      daddr := Config.resetDaddr }
  pins :=
    { lat := ⟨Config.resetLat .clk, Config.resetLat .dio⟩, dirr := ⟨Config.resetDirr .clk, Config.resetDirr .dio⟩ }
  seq := .idle
  trace := []
  port := { ops := [], res := Config.resetRes }
  env := { answers := [], asked := 0 }
  wire := { bus := .closed, cur := [], rx := [], dev := .unknown }

end Sys2Proof.Machine
end

