-- ==== Sys2Proof/Machine/Flags.lean ====
section
/-! DEFINITION. How the one-bit registers are computed: `ACK`, `NAK`, `QK`, and whether the block drives both wires. -/

namespace Sys2Proof.Machine

/-- `ACK` is 1 when the data line read LOW, 0 when it read HIGH (R31, R118). -/
def ackOf (a : Level) : Bool :=
  match a with
  | .low => true
  | .high => false

/-- `NAK` is set by a sample that read HIGH and otherwise keeps its value (R32, R118). -/
def nakAfter (nak : Bool) (a : Level) : Bool := nak || !(ackOf a)

/-- `QK <- QUIRK_REQ and (ND = 3)` (R24, R171). -/
def quirkFlag (cfg : Config) (nd : DigitCount) : Bool := cfg.quirkReq && decide (nd = .three)

/-- Both pins are outputs, so the wires show the latches (R38, R110). -/
def Pins.driven (p : Pins) : Bool := decide (p.dirr.clk = .out) && decide (p.dirr.dio = .out)

/-- The bit the port `res` carries after WRBYTE: bit 0 = ACK (R41). -/
def ackByte (ack : Bool) : Byte := if ack then 1 else 0

end Sys2Proof.Machine
end

