-- ==== Sys2Proof/Machine/Operands.lean ====
section
/-! DEFINITION. How operands become bytes, digits and codes: the address multiplexer (R34), the assembled bytes (R89),
clamping (R184), saturation (R185), digit extraction (R183) and the character table (R142). -/

namespace Sys2Proof.Machine

/-- `BLANK_CODE` (R147). -/
def blankCode : Byte := 0x00

/-- All seven segments lit (R181). -/
def allOnCode : Byte := 0x7F

/-- The off code of the decimal point (R180). -/
def dpOffCode : Byte := 0x00

/-- The physical index sent for a logical digit (R34, R63). -/
def phys (cfg : Config) (d : Digit) : Digit :=
  match cfg.mode, cfg.digitMap with
  | .fixed, some m => m.get d
  | .fixed, none => d
  | .autoIncrement, _ => d

/-- The address byte `0xC0 + phys(d)` (R89, R152). -/
def addrByte (cfg : Config) (d : Digit) : Byte := baseAddr + digitByte (phys cfg d)

/-- `level & 7` (R89). -/
def levelBits (l : Byte) : BitVec 3 := l.setWidth 3

/-- The display-on command `0x88 + level` (R84, R89). -/
def onByte (l : BitVec 3) : Byte := onBase + l.setWidth 8

/-- A raw pattern masked to 7 bits (R89). -/
def rawCode (v : Byte) : Byte := v &&& 0x7F

/-- LOOKUP for any index: the table entry, or the blank code outside the table (R142, R143). -/
def lookupCode (cfg : Config) (idx : Nat) : Byte := if idx < tableSize then cfg.chartab.getD idx blankCode else blankCode

/-- The code of a display character: raw, or through the table (R175). -/
def charCode (cfg : Config) (v : Byte) (raw : Bool) : Byte := if raw then rawCode v else lookupCode cfg v.toNat

/-- The decimal-point code (R179, R180). -/
def dpCode (cfg : Config) (on : Bool) : Byte := if on then cfg.dpOnCode else dpOffCode

/-- The digit count `begin` configures: the request if it is 1 to 4, else 1 (R171; conflict C2, decision D26). -/
def requestedCount (n : Byte) : DigitCount :=
  match n.toNat with
  | 1 => .one
  | 2 => .two
  | 3 => .three
  | 4 => .four
  | _ => .one

/-- `min(s, ND - m)`: the start of an m-digit field (R184); used with `m <= ND`. -/
def clampStart (nd : DigitCount) (m : Nat) (s : Byte) : Digit := Fin.ofNat 4 (min s.toNat (nd.toNat - m))

/-- The value DISPINT8 renders (R185). -/
def value8 (dec : Bool) (v : Byte) : Nat := if dec then min v.toNat 99 else v.toNat

/-- The value DISPINT12 renders (R185). -/
def value12 (dec : Bool) (v : BitVec 16) : Nat := if dec then min v.toNat 999 else min v.toNat 0xFFF

/-- The value DISPINT16 renders (R185). -/
def value16 (dec : Bool) (v : BitVec 16) : Nat := if dec then min v.toNat 9999 else v.toNat

/-- The digit value n(j) (R183). -/
def digitAt (dec : Bool) (w j : Nat) : Nat := if dec then w / 10 ^ j % 10 else (w >>> (4 * j)) &&& 0xF

/-- The digit values of an m-digit field, most significant first (R56, R183). -/
def fieldDigits (dec : Bool) (w : Nat) : Nat → List Nat
  | 0 => []
  | m + 1 => digitAt dec w m :: fieldDigits dec w m

/-- The codes of an m-digit field (R176 to R178). -/
def fieldCodes (cfg : Config) (dec : Bool) (w m : Nat) : List Byte := (fieldDigits dec w m).map (lookupCode cfg)

/-- The configured digits' codes, `DR[0]` to `DR[ND-1]` (R181). -/
def shownCodes (nd : DigitCount) (dr : Quad Byte) : List Byte := dr.toList.take nd.toNat

end Sys2Proof.Machine
end

