-- ==== Sys2Proof/Machine/Ops.lean ====
section
/-! DEFINITION. The named operations every meaning is built from: one update per part of the state, the device's memory,
the four GPIO calls (R210 to R214), the environment's answer (R71), the framing the device sees (R67), and running an
operation's list of events in order (R110). The block takes no exception (R200, R206), so there is no entry to model. -/

namespace Sys2Proof.Machine

/-! ## One update per part of the state -/

def State.putCtl (s : State) (x : Controller) : State := { s with ctl := x }
def State.putEng (s : State) (x : Engine) : State := { s with eng := x }
def State.putPins (s : State) (x : Pins) : State := { s with pins := x }
def State.putSeq (s : State) (x : Seq) : State := { s with seq := x }
def State.putPort (s : State) (x : Port) : State := { s with port := x }
def State.putEnv (s : State) (x : Env) : State := { s with env := x }
def State.putWire (s : State) (x : Wire) : State := { s with wire := x }

/-- Executing an event appends it to the trace (R11). -/
def State.emit (s : State) (e : Event) : State := { s with trace := s.trace ++ [e] }

/-! ## The device's memory (R51, R66) -/

/-- The byte at an address, or unknown. -/
def Memory.read (m : Memory) (a : Nat) : Option Byte :=
  match m with
  | [] => none
  | (b, v) :: rest => if a = b then some v else Memory.read rest a

/-- `MemWrite(DIG, a, 1, v)` (R11), keeping the addresses strictly rising. -/
def Memory.write (m : Memory) (a : Nat) (v : Byte) : Memory :=
  match m with
  | [] => [(a, v)]
  | (b, w) :: rest =>
    if a < b then (a, v) :: (b, w) :: rest
    else if a = b then (a, v) :: rest
    else (b, w) :: Memory.write rest a v

/-- The addresses are strictly rising, each at least `lo`, and none is outside the DIG space (R51). -/
def Memory.wfFrom (m : Memory) (lo : Nat) : Bool :=
  match m with
  | [] => true
  | (b, _) :: rest => decide (lo ≤ b) && decide (b < 4) && Memory.wfFrom rest (b + 1)

/-- The canonical form. No entry equals what an unlisted address reads as, since that is no byte. -/
def Memory.wf (m : Memory) : Bool := m.wfFrom 0

/-! ## The GPIO calls -/

/-- `DIR(p, m)`: the direction changes, the latch does not (R211). -/
def State.gpioDir (s : State) (p : Pin) (m : Dir) : State :=
  (s.putPins { s.pins with dirr := s.pins.dirr.set p m }).emit (.dir p m)

/-- `WR(p, l)`: the latch changes, whatever the direction (R212). -/
def State.gpioWr (s : State) (p : Pin) (l : Level) : State :=
  (s.putPins { s.pins with lat := s.pins.lat.set p l }).emit (.wr p l)

/-- `DLY(T_BIT)`: recorded, and no time passes (R214). -/
def State.gpioDly (s : State) : State := s.emit (.dly s.cfg.tBit)

/-- The environment's next answer (R71). -/
def Env.peek (e : Env) : Level :=
  match e.answers with
  | a :: _ => a
  | [] => Config.answer e.asked

/-- The environment after it has answered. -/
def Env.advance (e : Env) : Env :=
  match e.answers with
  | _ :: rest => { e with answers := rest }
  | [] => { e with asked := e.asked + 1 }

/-- What `RD(p)` answers: the latch of an output, the environment's level of an input (R38, R213). -/
def State.readLevel (s : State) (p : Pin) : Level := if s.pins.dirr.get p = .out then s.pins.lat.get p else s.env.peek

/-- `RD(p)`: no state of the block changes; the environment has answered if it was asked (R213). -/
def State.gpioRd (s : State) (p : Pin) : State :=
  (s.putEnv (if s.pins.dirr.get p = .out then s.env else s.env.advance)).emit (.rd p (s.readLevel p))

/-! ## What the device sees of the framing (R67, R70, R222, R234; log entry 8) -/

/-- Nothing is known of the device any more, and no transaction is open. -/
def Wire.lost : Wire := { bus := .closed, cur := [], rx := [], dev := .unknown }

/-- START. An open transaction without its STOP is an interrupted one (R70). -/
def Wire.start (w : Wire) (driven : Bool) : Wire :=
  match driven, w.bus with
  | true, .closed => { w with bus := .opened [] }
  | true, .opened _ => { Wire.lost with bus := .opened [] }
  | false, _ => Wire.lost

/-- A byte and its acknowledgement; outside a bracket the source does not describe the device (R234). -/
def Wire.byte (w : Wire) (driven : Bool) (v : Byte) (ack : Bool) : Wire :=
  match driven, w.bus with
  | true, .opened bs => { w with bus := .opened (bs ++ [(v, ack)]) }
  | true, .closed => Wire.lost
  | false, _ => Wire.lost

/-- STOP: a clean transaction goes to the device; after one that is not clean every element is unknown (R67). -/
def Wire.stop (w : Wire) (driven : Bool) : Wire :=
  match driven, w.bus with
  | true, .opened (b :: bs) =>
    if (b :: bs).all (fun x => x.2) then { w with bus := .closed, rx := w.rx ++ [(b.1, bs.map (fun x => x.1))] }
    else Wire.lost
  | true, .opened [] => Wire.lost
  | true, .closed => Wire.lost
  | false, _ => Wire.lost

/-- The wires may show any level between the direction setting and the first START, unless the pins were outputs
already (R222); and a byte that begins with a pin that is no output does not reach them (R38, R212). -/
def Wire.glitch (w : Wire) (driven : Bool) : Wire := if driven then w else Wire.lost

/-! ## Running a list of events -/

/-- The level of the bit on its way out, `SR[0]` (R114). -/
def Engine.bitLevel (e : Engine) : Level := Level.ofBit (e.sr.getLsbD 0)

/-- The acknowledgement sample (R118). -/
def State.sample (s : State) : State :=
  (s.gpioRd .dio).putEng { s.eng with ack := ackOf (s.readLevel .dio), nak := nakAfter s.eng.nak (s.readLevel .dio) }

/-- The effect of one entry. -/
def Micro.run (m : Micro) (s : State) : State :=
  match m with
  | .dir p d => s.gpioDir p d
  | .wr p l => s.gpioWr p l
  | .loadSr v => s.putEng { s.eng with sr := v, bc := 0 }
  | .wrBit => s.gpioWr .dio s.eng.bitLevel
  | .shiftSr => s.putEng { s.eng with sr := s.eng.sr >>> 1, bc := s.eng.bc + 1 }
  | .dly => s.gpioDly
  | .sample => s.sample
  | .drive => if s.eng.ack then s.gpioWr .dio .low else s
  | .setDaddr p => s.putEng { s.eng with daddr := p }
  | .incDaddr => s.putEng { s.eng with daddr := s.eng.daddr + 1 }
  | .setDr i v => s.putCtl { s.ctl with dr := s.ctl.dr.set i v }
  | .setBr l => s.putCtl { s.ctl with br := l }
  | .setNd n => s.putCtl { s.ctl with nd := n }
  | .setQk q => s.putCtl { s.ctl with qk := q }
  | .setInit => s.putCtl { s.ctl with init := true }
  | .clrNak => s.putEng { s.eng with nak := false }
  | .ret v => s.putPort { s.port with res := v }
  | .retAck => s.putPort { s.port with res := ackByte s.eng.ack }
  | .busStart => s.putWire (s.wire.start s.pins.driven)
  | .busByte v => s.putWire (s.wire.byte s.pins.driven v s.eng.ack)
  | .busStop => s.putWire (s.wire.stop s.pins.driven)
  | .busGlitch => s.putWire (s.wire.glitch s.pins.driven)

/-- An operation emits its events in order, none skipped, repeated or reordered (R64, R110). -/
def runAll (ms : List Micro) (s : State) : State :=
  match ms with
  | [] => s
  | m :: rest => runAll rest (m.run s)

/-- The outcome of an operation that needs `INIT = 1` (R21, R170, R208). -/
def whenReady (s : State) (r : Result) : Result := if s.ctl.init then r else .refused .notReady

/-- The outcome of an operation that exists only under one addressing mode (R98, R151). -/
def whenMode (m : AddrMode) (s : State) (r : Result) : Result := if s.cfg.mode = m then r else .refused .wrongMode

end Sys2Proof.Machine
end

