-- ==== Sys2Proof/Machine/Engine.lean ====
section
/-! DEFINITION. The protocol engine: START, STOP, WRBYTE, BITDELAY (R110 to R121). None needs `INIT = 1` (R110, R208). -/

namespace Sys2Proof.Machine

/-- `START` (R111). The transaction is open before its first event, so that another agent's call at any event of START on
interrupts it (R230; log entry 11). -/
def startList : List Micro := [.busStart, .wr .clk .high, .wr .dio .high, .wr .dio .low, .wr .clk .low]

/-- `STOP` (R112). -/
def stopList : List Micro := [.wr .clk .low, .wr .dio .low, .wr .clk .high, .wr .dio .high, .busStop]

/-- One bit: clock low, data, clock high, then the shift (R115). -/
def bitList : List Micro := [.wr .clk .low, .wrBit, .wr .clk .high, .shiftSr]

/-- Release, ninth clock, delay, sample, the conditional write, delay, restore (R116 to R119). -/
def ackList : List Micro := [.dir .dio .inp, .wr .clk .low, .wr .clk .high, .dly, .sample, .drive, .dly, .dir .dio .out]

/-- `WRBYTE v` (R113): eight bits, then the acknowledgement. With a pin that is no output when it begins, the bits do not reach
the wires (R38, R212), and the device is lost (log entry 8). -/
def byteList (v : Byte) : List Micro :=
  .busGlitch :: .loadSr v :: (bitList ++ bitList ++ bitList ++ bitList ++ bitList ++ bitList ++ bitList ++ bitList ++ ackList ++ [.busByte v])

/-- `WRBYTE v` as a host operation, with its result (R41, R113). -/
def wrbyteList (v : Byte) : List Micro := byteList v ++ [.retAck]

/-- `BITDELAY` (R121). -/
def bitdelayList : List Micro := [.dly]

def execStart (s : State) : Result := .next (runAll startList s)

def execStop (s : State) : Result := .next (runAll stopList s)

def execWrbyte (v : Byte) (s : State) : Result := .next (runAll (wrbyteList v) s)

def execBitdelay (s : State) : Result := .next (runAll bitdelayList s)

end Sys2Proof.Machine
end

