-- ==== Sys2Proof/Machine/Addressing.lean ====
section
/-! DEFINITION. Digit addressing: SENDADDR, SENDCMD, WRDIGIT, WRRUN (R153 to R157) and the pseudo-operation XFER (R94). -/

namespace Sys2Proof.Machine

/-- `SENDCMD c` (R154). -/
def sendcmdList (c : Byte) : List Micro := startList ++ byteList c ++ stopList

/-- `SENDADDR d` (R153). -/
def sendaddrList (cfg : Config) (d : Digit) : List Micro := .setDaddr (phys cfg d) :: byteList (addrByte cfg d)

/-- `WRDIGIT d, v` (R155). -/
def wrdigitList (cfg : Config) (d : Digit) (v : Byte) : List Micro :=
  sendcmdList setFixed ++ startList ++ sendaddrList cfg d ++ byteList v ++ stopList

/-- The burst: each code, then `DADDR <- (DADDR + 1) mod 4` (R156). -/
def burstList : List Byte → List Micro
  | [] => []
  | v :: vs => byteList v ++ .incDaddr :: burstList vs

/-- `WRRUN d, [v0, …]` (R156). -/
def wrrunList (cfg : Config) (d : Digit) (vs : List Byte) : List Micro :=
  sendcmdList setAuto ++ startList ++ sendaddrList cfg d ++ burstList vs ++ stopList

/-- XFER under Fixed: one WRDIGIT per code, ascending (R94); used where d + k <= 4, as every display operation does (R161). -/
def xferFixedList (cfg : Config) (d : Digit) : List Byte → List Micro
  | [] => []
  | v :: vs => wrdigitList cfg d v ++ xferFixedList cfg (d + 1) vs

/-- `XFER d, [v0, …]` (R94). -/
def xferList (cfg : Config) (d : Digit) (vs : List Byte) : List Micro :=
  match cfg.mode with
  | .autoIncrement => wrrunList cfg d vs
  | .fixed => xferFixedList cfg d vs

def execSendcmd (c : Byte) (s : State) : Result := whenReady s (.next (runAll (sendcmdList c) s))

def execWrdigit (d : Digit) (v : Byte) (s : State) : Result :=
  whenReady s (whenMode .fixed s (.next (runAll (wrdigitList s.cfg d v) s)))

def execWrrun (d : Digit) (codes : List Byte) (s : State) : Result :=
  whenReady s (whenMode .autoIncrement s
    (if runFits d codes then .next (runAll (wrrunList s.cfg d codes) s) else .refused .outOfBounds))

end Sys2Proof.Machine
end

