-- ==== Sys2Proof/Machine/Controller.lean ====
section
/-! DEFINITION. The display controller: BEGIN, DISPOFF, DISPCLEAR, DISPBRIGHT, DISPCHAR, DISPINT8, DISPINT12, DISPINT16,
DISPDP, DISPTEST (R170 to R186). Each computes its operands and codes, writes `DR`, then transmits (R182). -/

namespace Sys2Proof.Machine

/-- `DR[d] <- v0 ; DR[d+1] <- v1 ; …`. -/
def setRunList (d : Digit) : List Byte → List Micro
  | [] => []
  | v :: vs => .setDr d v :: setRunList (d + 1) vs

/-- Write codes to `DR` from digit d on, then transmit the same codes (R182). -/
def showList (cfg : Config) (d : Digit) (vs : List Byte) : List Micro := setRunList d vs ++ xferList cfg d vs

/-- `DISPDP on` (R179): nothing unless the quirk is active (R186). -/
def dispdpList (cfg : Config) (qk on : Bool) : List Micro := if qk then showList cfg 3 [dpCode cfg on] else []

/-- `DISPCLEAR` (R173). -/
def dispclearList (cfg : Config) (nd : DigitCount) (qk : Bool) : List Micro :=
  showList cfg 0 (List.replicate nd.toNat blankCode) ++ dispdpList cfg qk false

/-- `DISPBRIGHT l` (R174). -/
def dispbrightList (l : Byte) : List Micro := .setBr (levelBits l) :: sendcmdList (onByte (levelBits l))

/-- `BEGIN n, b` (R171). -/
def beginList (cfg : Config) (n b : Byte) : List Micro :=
  [.clrNak, .setNd (requestedCount n), .setQk (quirkFlag cfg (requestedCount n)), .busGlitch,
    .dir .clk .out, .dir .dio .out, .setInit] ++
  dispclearList cfg (requestedCount n) (quirkFlag cfg (requestedCount n)) ++ dispbrightList b

/-- `DISPOFF` (R172). -/
def dispoffList : List Micro := sendcmdList dispOff

/-- `DISPCHAR d, v, raw` (R175). -/
def dispcharList (cfg : Config) (nd : DigitCount) (d v : Byte) (raw : Bool) : List Micro :=
  showList cfg (clampStart nd 1 d) [charCode cfg v raw]

/-- A number of m digits from the clamped start on; nothing when fewer than m digits are configured (R184, R186). -/
def fieldList (cfg : Config) (nd : DigitCount) (m : Nat) (start : Byte) (dec : Bool) (w : Nat) : List Micro :=
  if nd.toNat < m then [] else showList cfg (clampStart nd m start) (fieldCodes cfg dec w m)

/-- `DISPTEST on` (R181). -/
def disptestList (cfg : Config) (ctl : Controller) (on : Bool) : List Micro :=
  if on then
    xferList cfg 0 (List.replicate ctl.nd.toNat allOnCode) ++ (if ctl.qk then xferList cfg 3 [cfg.dpOnCode] else [])
  else
    xferList cfg 0 (shownCodes ctl.nd ctl.dr) ++ (if ctl.qk then xferList cfg 3 [ctl.dr.d3] else [])

def execBegin (n b : Byte) (s : State) : Result := .next (runAll (beginList s.cfg n b) s)

def execDispoff (s : State) : Result := whenReady s (.next (runAll dispoffList s))

def execDispclear (s : State) : Result := whenReady s (.next (runAll (dispclearList s.cfg s.ctl.nd s.ctl.qk) s))

def execDispbright (l : Byte) (s : State) : Result := whenReady s (.next (runAll (dispbrightList l) s))

def execDispchar (d v : Byte) (raw : Bool) (s : State) : Result :=
  whenReady s (.next (runAll (dispcharList s.cfg s.ctl.nd d v raw) s))

def execDispint8 (start v : Byte) (dec : Bool) (s : State) : Result :=
  whenReady s (.next (runAll (fieldList s.cfg s.ctl.nd 2 start dec (value8 dec v)) s))

def execDispint12 (start : Byte) (v : BitVec 16) (dec : Bool) (s : State) : Result :=
  whenReady s (.next (runAll (fieldList s.cfg s.ctl.nd 3 start dec (value12 dec v)) s))

def execDispint16 (start : Byte) (v : BitVec 16) (dec : Bool) (s : State) : Result :=
  whenReady s (.next (runAll (fieldList s.cfg s.ctl.nd 4 start dec (value16 dec v)) s))

def execDispdp (on : Bool) (s : State) : Result := whenReady s (.next (runAll (dispdpList s.cfg s.ctl.qk on) s))

def execDisptest (on : Bool) (s : State) : Result :=
  whenReady s (if s.cfg.hasTest then .next (runAll (disptestList s.cfg s.ctl on) s) else .refused .noTest)

end Sys2Proof.Machine
end

