-- ==== Sys2Proof/Machine/Encoder.lean ====
section
/-! DEFINITION. The character encoder: LOOKUP (R142 to R144). It is never refused (R208). -/

namespace Sys2Proof.Machine

/-- `LOOKUP idx`: no event; the code goes to the port `res`. -/
def lookupList (cfg : Config) (idx : Byte) : List Micro := [.ret (lookupCode cfg idx.toNat)]

def execLookup (idx : Byte) (s : State) : Result := .next (runAll (lookupList s.cfg idx) s)

end Sys2Proof.Machine
end

