-- ==== Sys2Proof/Machine/Device.lean ====
section
/-! DEFINITION. The reference device (R65 to R70): how it takes one wire byte, and what R67 to R69 say of a whole
transaction. -/

namespace Sys2Proof.Machine

/-! ## One byte at a time -/

/-- Whether further bytes of the transaction follow the byte being taken. -/
def Wire.more (w : Wire) : Bool := !w.cur.isEmpty

/-- A command alone in its transaction has its effect; with a further byte every element becomes unknown (R68). -/
def Wire.command (w : Wire) (f : Device → Device) : Wire :=
  if w.more then { w with cur := [], dev := .unknown } else { w with dev := f w.dev }

/-- The address phase: `dev_ptr <- b0 - 0xC0` (R68). -/
def Wire.address (w : Wire) (i : Digit) : Wire := { w with dev := { w.dev with ptr := some i } }

/-- The pointer after a data byte under auto-increment (R69). -/
def nextPtr (p : Digit) : Option Digit := if p.val < 3 then some (p + 1) else none

/-- One data byte (R69). -/
def Wire.data (w : Wire) (v : Byte) : Wire :=
  match w.dev.ptr, w.dev.mode with
  | some p, some .autoIncrement =>
    { w with dev := { w.dev with mem := w.dev.mem.write p.val v, ptr := nextPtr p } }
  | some p, some .fixed =>
    if w.more then { w with cur := [], dev := { w.dev with mem := [], ptr := none } }
    else { w with dev := { w.dev with mem := w.dev.mem.write p.val v } }
  | some _, none => { w with cur := [], dev := { w.dev with mem := [] } }
  | none, _ => { w with cur := [], dev := { w.dev with mem := [] } }

/-- A first byte outside the table: every element becomes unknown (R68, R95). -/
def Wire.unlisted (w : Wire) : Wire := { w with cur := [], dev := .unknown }

/-! ## A whole transaction -/

/-- The data bytes of a clean transaction whose first byte was an address (R69). -/
def Device.takeData (d : Device) (vs : List Byte) : Device :=
  match vs with
  | [] => d
  | v :: rest =>
    match d.ptr, d.mode with
    | some p, some .autoIncrement => Device.takeData { d with mem := d.mem.write p.val v, ptr := nextPtr p } rest
    | some p, some .fixed =>
      if rest.isEmpty then { d with mem := d.mem.write p.val v } else { d with mem := [], ptr := none }
    | some _, none => { d with mem := [] }
    | none, _ => { d with mem := [] }

/-- A clean transaction by its first byte (R68), written from the rule's own ranges and not from the decoder. -/
def Device.take (d : Device) (b : Byte) (rest : List Byte) : Device :=
  if 0xC0 ≤ b.toNat ∧ b.toNat ≤ 0xC3 then Device.takeData { d with ptr := some (Fin.ofNat 4 (b.toNat - 0xC0)) } rest
  else if rest.isEmpty then
    if b.toNat = 0x40 then { d with mode := some .autoIncrement }
    else if b.toNat = 0x44 then { d with mode := some .fixed }
    else if b.toNat = 0x80 then { d with on := some false }
    else if 0x88 ≤ b.toNat ∧ b.toNat ≤ 0x8F then { d with on := some true, br := some (BitVec.ofNat 3 (b.toNat - 0x88)) }
    else .unknown
  else .unknown

/-- The device once it has taken everything that is on its way to it. R70 gives no moment at which an open transaction counts
as interrupted: here it does at the next START or at another agent's call, and until then the device is what it was before the
open transaction (DESIGN CHOICE, log entry 8). -/
def Wire.settled (w : Wire) : Device := w.rx.foldl (fun d t => d.take t.1 t.2) (w.dev.takeData w.cur)

end Sys2Proof.Machine
end

