-- ==== Sys2Proof/Machine/Wire.lean ====
section
/-! DEFINITION. The meanings of the wire bytes: what the reference device does with each (R65 to R69). The state they start
from is the one after the byte has been taken off the wire (Machine/Fetch.lean). -/

namespace Sys2Proof.Machine

/-- `W.AUTO`: `dev_mode <- auto` (R68, R81). -/
def execWAuto (s : State) : Result := .next (s.putWire (s.wire.command fun d => { d with mode := some .autoIncrement }))

/-- `W.FIXED`: `dev_mode <- fixed` (R68, R82). -/
def execWFixed (s : State) : Result := .next (s.putWire (s.wire.command fun d => { d with mode := some .fixed }))

/-- `W.OFF`: `dev_on <- off` (R68, R83). -/
def execWOff (s : State) : Result := .next (s.putWire (s.wire.command fun d => { d with on := some false }))

/-- `W.ON level`: `dev_on <- on ; dev_br <- b0 - 0x88` (R68, R84). -/
def execWOn (level : BitVec 3) (s : State) : Result :=
  .next (s.putWire (s.wire.command fun d => { d with on := some true, br := some level }))

/-- `W.ADDR i`: `dev_ptr <- b0 - 0xC0` (R68, R85). -/
def execWAddr (i : Digit) (s : State) : Result := .next (s.putWire (s.wire.address i))

/-- `W.DATA v`: a data byte (R69, R85). -/
def execWData (v : Byte) (s : State) : Result := .next (s.putWire (s.wire.data v))

end Sys2Proof.Machine
end

