-- ==== Sys2Proof/Machine/Dispatch.lean ====
section
/-! DEFINITION. One arm per instruction. -/

namespace Sys2Proof.Machine

def exec (i : Instr) (s : State) : Host.Outcome State Fault Refusal :=
  match i with
  | .wAuto => Sys2Proof.Machine.execWAuto s
  | .wFixed => Sys2Proof.Machine.execWFixed s
  | .wOff => Sys2Proof.Machine.execWOff s
  | .wOn level => Sys2Proof.Machine.execWOn level s
  | .wAddr d => Sys2Proof.Machine.execWAddr d s
  | .wData v => Sys2Proof.Machine.execWData v s
  | .start => Sys2Proof.Machine.execStart s
  | .stop => Sys2Proof.Machine.execStop s
  | .wrbyte v => Sys2Proof.Machine.execWrbyte v s
  | .bitdelay => Sys2Proof.Machine.execBitdelay s
  | .lookup idx => Sys2Proof.Machine.execLookup idx s
  | .sendcmd c => Sys2Proof.Machine.execSendcmd c s
  | .wrdigit d v => Sys2Proof.Machine.execWrdigit d v s
  | .wrrun d codes => Sys2Proof.Machine.execWrrun d codes s
  | .beginDisp n b => Sys2Proof.Machine.execBegin n b s
  | .dispoff => Sys2Proof.Machine.execDispoff s
  | .dispclear => Sys2Proof.Machine.execDispclear s
  | .dispbright l => Sys2Proof.Machine.execDispbright l s
  | .dispchar d v raw => Sys2Proof.Machine.execDispchar d v raw s
  | .dispint8 st v dec => Sys2Proof.Machine.execDispint8 st v dec s
  | .dispint12 st v dec => Sys2Proof.Machine.execDispint12 st v dec s
  | .dispint16 st v dec => Sys2Proof.Machine.execDispint16 st v dec s
  | .dispdp on => Sys2Proof.Machine.execDispdp on s
  | .disptest on => Sys2Proof.Machine.execDisptest on s

end Sys2Proof.Machine
end

