-- ==== Sys2Proof/Machine/Fetch.lean ====
section
/-! DEFINITION. What comes next. The block fetches no instructions (R35, R74): the host presents one operation at a time on
the ports (R41, R91). The device takes the bytes of the clean transactions that reached it, one wire byte after another
(R67 to R69), before the next operation is presented (log entry 7). -/

namespace Sys2Proof.Machine

/-- What is there to run, with the state after it has been taken. -/
inductive Fetched where
  | nothing
  | wire (p : Pos) (b : Byte) (s : State)
  | op (w : OpWord) (s : State)
  deriving DecidableEq, Repr

/-- The next wire byte, or else the next operation. -/
def fetch (s : State) : Fetched :=
  match s.wire.cur with
  | v :: rest => .wire .data v (s.putWire { s.wire with cur := rest })
  | [] =>
    match s.wire.rx with
    | (b, rest) :: q => .wire .first b (s.putWire { s.wire with rx := q, cur := rest })
    | [] =>
      match s.port.ops with
      | w :: q => .op w (s.putPort { s.port with ops := q })
      | [] => .nothing

/-- Decode what was fetched and run it. Without an operation the block does nothing (R220). A first byte outside the
table makes the device unknown (R68); a word outside the table is refused (R91, R98). -/
def runFetched (s : State) (f : Fetched) : Result :=
  match f with
  | .nothing => .next s
  | .wire p b s' =>
    match decodeWire p b with
    | .ok i => exec i s'
    | .error _ => .next (s'.putWire s'.wire.unlisted)
  | .op w s' =>
    match decodeOp w with
    | .ok i => exec i s'
    | .error e => .refused (.badWord e)

/-- Finish the operation in progress: its remaining events, then `SEQ` is idle (R35). -/
def finish (rest : List Micro) (s : State) : State := (runAll rest s).putSeq .idle

end Sys2Proof.Machine
end

