-- ==== Sys2Proof/Machine/Step.lean ====
section
/-! DEFINITION. One step: an operation left in progress is finished (R35, R205); otherwise what comes next is fetched and
run to its end (R7, R64). -/

namespace Sys2Proof.Machine

def step (s : State) : Host.Outcome State Fault Refusal :=
  match s.seq with
  | .busy _ _ rest => .next (finish rest s)
  | .idle => runFetched s (fetch s)

/-- The state with an instruction placed where the next step fetches: nothing in progress, and either the wire byte as
a transaction of its own on its way to the device, or the operation word on the ports with nothing on its way to the
device (log entry 7). -/
def State.withFetchWord (s : State) (_nbits w : Nat) : State :=
  if w % 256 < 32 then
    ((s.putSeq .idle).putWire { s.wire with cur := [], rx := [] }).putPort { s.port with ops := OpWord.ofBits w :: s.port.ops }
  else
    (s.putSeq .idle).putWire { s.wire with cur := [], rx := (BitVec.ofNat 8 w, []) :: s.wire.rx }

end Sys2Proof.Machine
end

