-- ==== Sys2Proof/Machine/Ports.lean ====
section
/-! DEFINITION. The ports as functions of the state (R41), and the levels on the wires (R38). -/

namespace Sys2Proof.Machine

/-- The level on a wire: the latch of an output, the outside level of an input (R38). For the data line the outside level
is L while the device pulls it and H otherwise; that the clock line is an input never arises. -/
def State.line (s : State) (p : Pin) (outside : Level) : Level :=
  if s.pins.dirr.get p = .out then s.pins.lat.get p else outside

/-- The output ports of R41, but for `res`, which is `State.port.res`. -/
structure Outputs where
  opReady : Bool
  nak : Bool
  clkO : Level
  clkOe : Bool
  dioO : Level
  dioOe : Bool
  dlyReq : Bool
  dlyLen : Nat
  deriving DecidableEq, Repr

/-- A delay is the entry in progress. -/
def Seq.delaying : Seq → Bool
  | .busy _ _ (.dly :: _) => true
  | .busy _ _ _ => false
  | .idle => false

/-- `dly_len` is T_BIT also while `dly_req` is 0, where R41 gives it no value (DESIGN CHOICE, log entry 13). -/
def State.outputs (s : State) : Outputs where
  opReady := decide (s.seq = .idle)
  nak := s.eng.nak
  clkO := s.pins.lat.clk
  clkOe := decide (s.pins.dirr.clk = .out)
  dioO := s.pins.lat.dio
  dioOe := decide (s.pins.dirr.dio = .out)
  dlyReq := s.seq.delaying
  dlyLen := s.cfg.tBit

/-- `op_valid`: the host presents an operation. -/
def State.opValid (s : State) : Bool := !s.port.ops.isEmpty

end Sys2Proof.Machine
end

