-- ==== Sys2Proof/Machine/Pseudo.lean ====
section
/-! DEFINITION. The pseudo-operations of R94 as lists of host operations. A digit number above 3 does not fit the operand
field of WRDIGIT and WRRUN, so the operation that names it is none (R59, R91). -/

namespace Sys2Proof.Machine

/-- The operation of a digit number, if the number fits `op_a[1:0]` (R91). -/
def atDigit (d : Nat) (op : Digit → Instr) : Decoded := if h : d < 4 then .ok (op ⟨d, h⟩) else .error .strayOperandBits

/-- `WRDIGIT d, v0 ; WRDIGIT d+1, v1 ; …`. -/
def digitOps (d : Nat) : List Byte → List Decoded
  | [] => []
  | v :: vs => (atDigit d fun e => .wrdigit e v) :: digitOps (d + 1) vs

/-- `XFER d, [v0, …]` (R94). -/
def xferOps (mode : AddrMode) (d : Nat) (vs : List Byte) : List Decoded :=
  match mode with
  | .autoIncrement => [atDigit d fun e => .wrrun e vs]
  | .fixed => digitOps d vs

/-- `W.ON level` as an operation (R94). -/
def displayOnOp (level : Byte) : Instr := .sendcmd (onByte (levelBits level))

/-- `W.OFF` as an operation (R94). -/
def displayOffOp : Instr := .sendcmd dispOff

/-- Operations one after another; the first refusal ends the list. -/
def execOps (is : List Decoded) (s : State) : Result :=
  match is with
  | [] => .next s
  | .error e :: _ => .refused (.badWord e)
  | .ok i :: rest =>
    match exec i s with
    | .next t => execOps rest t
    | .fault r => .fault r
    | .refused r => .refused r

end Sys2Proof.Machine
end

