-- ==== Sys2Proof/Machine/Sequencer.lean ====
section
/-! DEFINITION. The micro-sequencer seen one event at a time (R35): starting an operation, one entry of its list, and what
another user of the two pins can do in between (R230). -/

namespace Sys2Proof.Machine

/-- The list of an operation when it starts in a state; a wire byte is no operation of the block. -/
def opList (i : Instr) (s : State) : List Micro :=
  match i with
  | .wAuto => []
  | .wFixed => []
  | .wOff => []
  | .wOn _ => []
  | .wAddr _ => []
  | .wData _ => []
  | .start => startList
  | .stop => stopList
  | .wrbyte v => wrbyteList v
  | .bitdelay => bitdelayList
  | .lookup idx => lookupList s.cfg idx
  | .sendcmd c => sendcmdList c
  | .wrdigit d v => wrdigitList s.cfg d v
  | .wrrun d codes => wrrunList s.cfg d codes
  | .beginDisp n b => beginList s.cfg n b
  | .dispoff => dispoffList
  | .dispclear => dispclearList s.cfg s.ctl.nd s.ctl.qk
  | .dispbright l => dispbrightList l
  | .dispchar d v raw => dispcharList s.cfg s.ctl.nd d v raw
  | .dispint8 st v dec => fieldList s.cfg s.ctl.nd 2 st dec (value8 dec v)
  | .dispint12 st v dec => fieldList s.cfg s.ctl.nd 3 st dec (value12 dec v)
  | .dispint16 st v dec => fieldList s.cfg s.ctl.nd 4 st dec (value16 dec v)
  | .dispdp on => dispdpList s.cfg s.ctl.qk on
  | .disptest on => disptestList s.cfg s.ctl on

/-- `SEQ` at a place in an operation: `idle` once nothing is left (R35). -/
def seqAt (i : Instr) (n : Nat) (rest : List Micro) : Seq :=
  match rest with
  | [] => .idle
  | _ :: _ => .busy i n rest

/-- An operation starts from idle: `SEQ = (op, 0)` (R35). -/
def launch (i : Instr) (s : State) : State := s.putSeq (seqAt i 0 (opList i s))

/-- One entry of the operation in progress; n advances by one per event (R35). -/
def tick (s : State) : State :=
  match s.seq with
  | .idle => s
  | .busy _ _ [] => s.putSeq .idle
  | .busy i n (m :: rest) => (m.run s).putSeq (seqAt i (n + ((m.run s).trace.length - s.trace.length)) rest)

/-- The state after k entries. -/
def ticks (k : Nat) (s : State) : State :=
  match k with
  | 0 => s
  | k + 1 => ticks k (tick s)

/-- A call on the two pins by another agent: the pins change, the block notices nothing, nothing is known of the device any
more, and a transaction that was open is none, so that what is left of it is lost too (R230, R231). `step` never does this (log
entry 9). -/
def State.foreign (s : State) (e : Event) : State :=
  match e with
  | .dir p m => (s.putPins { s.pins with dirr := s.pins.dirr.set p m }).putWire Wire.lost
  | .wr p l => (s.putPins { s.pins with lat := s.pins.lat.set p l }).putWire Wire.lost
  | .rd _ _ => s.putWire Wire.lost
  | .dly _ => s

end Sys2Proof.Machine
end

