-- ==== Sys2Proof/Machine/Trace.lean ====
section
/-! DEFINITION. The event lists the rules print (R111 to R122), and reading a trace: the transactions it holds (R125), the
counts of R127 and R237, and where the data line changes (R115, R124). -/

namespace Sys2Proof.Machine

/-! ## The events of the engine's operations -/

/-- `C1 D1 D0 C0` (R111). -/
def startEvents : List Event := [.wr .clk .high, .wr .dio .high, .wr .dio .low, .wr .clk .low]

/-- `C0 D0 C1 D1` (R112). -/
def stopEvents : List Event := [.wr .clk .low, .wr .dio .low, .wr .clk .high, .wr .dio .high]

/-- One bit (R115). -/
def bitEvents (b : Bool) : List Event := [.wr .clk .low, .wr .dio (Level.ofBit b), .wr .clk .high]

/-- The acknowledgement phase for an answer (R116 to R119). -/
def ackEvents (tBit : Nat) (a : Level) : List Event :=
  [.dir .dio .inp, .wr .clk .low, .wr .clk .high, .dly tBit, .rd .dio a] ++
  (match a with
    | .low => [.wr .dio .low]
    | .high => []) ++
  [.dly tBit, .dir .dio .out]

/-- A byte, bit 0 first (R54, R113, R114). -/
def byteEvents (tBit : Nat) (v : Byte) (a : Level) : List Event :=
  ((List.range 8).flatMap fun k => bitEvents (v.getLsbD k)) ++ ackEvents tBit a

/-- A transaction: START, each byte with its answer, STOP (R122). -/
def transactionEvents (tBit : Nat) (bytes : List (Byte × Level)) : List Event :=
  startEvents ++ bytes.flatMap (fun x => byteEvents tBit x.1 x.2) ++ stopEvents

/-! ## Reading a trace -/

/-- What the decoder of R125 recognises. -/
inductive Token where
  | start
  | stop
  | bit (b : Bool)
  | ack (a : Level)
  deriving DecidableEq, Repr

def Level.toBit : Level → Bool
  | .high => true
  | .low => false

/-- Left to right, a delimiter first wherever one matches (R125). -/
def tokens : List Event → List Token
  | [] => []
  | .wr .clk .high :: .wr .dio .high :: .wr .dio .low :: .wr .clk .low :: rest => .start :: tokens rest
  | .wr .clk .low :: .wr .dio .low :: .wr .clk .high :: .wr .dio .high :: rest => .stop :: tokens rest
  | .wr .clk .low :: .wr .dio l :: .wr .clk .high :: rest => .bit (Level.toBit l) :: tokens rest
  | .rd .dio a :: rest => .ack a :: tokens rest
  | _ :: rest => tokens rest

/-- The number whose bits are listed least significant first (R54). -/
def bitsValue : List Bool → Nat
  | [] => 0
  | b :: bs => (if b then 1 else 0) + 2 * bitsValue bs

/-- What has been read so far: the transactions, the bytes since a START that no STOP has followed yet, every byte whether
inside a bracket or not, and the bits of the byte in progress. -/
structure Reader where
  done : List (List (Byte × Bool))
  bracket : Option (List (Byte × Bool))
  all : List (Byte × Bool)
  bits : List Bool
  deriving DecidableEq, Repr

/-- Nothing read. -/
def Reader.empty : Reader := ⟨[], none, [], []⟩

/-- A byte, with its acknowledgement. -/
def Reader.byte (r : Reader) (x : Byte × Bool) : Reader :=
  { r with bracket := r.bracket.map (fun bs => bs ++ [x]), all := r.all ++ [x], bits := [] }

/-- A START inside a bracket opens another, a STOP outside a bracket ends none, and a START directly followed by STOP is the
empty transaction, where R125 says only that the two patterns delimit transactions (DESIGN CHOICE, log entry 22). -/
def readToken (r : Reader) (t : Token) : Reader :=
  match t with
  | .start => { r with bracket := some [], bits := [] }
  | .bit b => { r with bits := r.bits ++ [b] }
  | .ack a => if r.bits.length = 8 then r.byte (BitVec.ofNat 8 (bitsValue r.bits), ackOf a) else r
  | .stop => { r with done := r.done ++ r.bracket.toList, bracket := none, bits := [] }

def readTrace (es : List Event) : Reader := (tokens es).foldl readToken .empty

/-- `bytes(trace)`: every byte with its acknowledgement, in a bracket or not (R125). -/
def traceBytes (es : List Event) : List (Byte × Bool) := (readTrace es).all

/-- The transactions of a trace: the bytes from a START to the next STOP, each with its acknowledgement (R125; log entry 22). -/
def transactions (es : List Event) : List (List (Byte × Bool)) := (readTrace es).done

/-- The bytes of the transactions alone. -/
def byteLists (es : List Event) : List (List Byte) := (transactions es).map (fun t => t.map (fun x => x.1))

/-! ## Raw engine use -/

/-- What the host issues by hand: START, STOP, or a WRBYTE with the answer it gets. -/
inductive RawOp where
  | start
  | stop
  | byte (v : Byte) (a : Level)
  deriving DecidableEq, Repr

/-- Its events (R111 to R113). -/
def RawOp.events (tBit : Nat) : RawOp → List Event
  | .start => startEvents
  | .stop => stopEvents
  | .byte v a => byteEvents tBit v a

/-- The bytes among raw operations, each with its acknowledgement. -/
def rawBytes : List RawOp → List (Byte × Bool)
  | [] => []
  | .byte v a :: rest => (v, ackOf a) :: rawBytes rest
  | .start :: rest => rawBytes rest
  | .stop :: rest => rawBytes rest

/-- The brackets among raw operations, the bytes since the last START given: START to the next STOP (R67, R122), an empty one
too (log entry 22). -/
def rawBrackets (bracket : Option (List (Byte × Bool))) : List RawOp → List (List (Byte × Bool))
  | [] => []
  | .start :: rest => rawBrackets (some []) rest
  | .stop :: rest => bracket.toList ++ rawBrackets none rest
  | .byte v a :: rest => rawBrackets (bracket.map fun bs => bs ++ [(v, ackOf a)]) rest

/-! ## Counting, and the data line -/

def isDelay : Event → Bool
  | .dly _ => true
  | _ => false

def isSample : Event → Bool
  | .rd _ _ => true
  | _ => false

def isClockHigh : Event → Bool
  | .wr .clk .high => true
  | _ => false

/-- No write to the data line while the clock latch is high (R115), from a given clock latch on. -/
def dataOnlyWhileClockLow (clk : Level) : List Event → Bool
  | [] => true
  | .wr .clk l :: rest => dataOnlyWhileClockLow l rest
  | .wr .dio _ :: rest => decide (clk = .low) && dataOnlyWhileClockLow clk rest
  | .dir _ _ :: rest => dataOnlyWhileClockLow clk rest
  | .rd _ _ :: rest => dataOnlyWhileClockLow clk rest
  | .dly _ :: rest => dataOnlyWhileClockLow clk rest

end Sys2Proof.Machine
end

