-- ==== Sys2Proof/Safety.lean ====
section
/-! DEFINITION. The terms claims use: the launch premises, the invariant of a run, shadow agreement, and frames. -/

namespace Sys2Proof.Machine

/-- What every state of a run meets between operations. -/
structure Inv (s : State) : Prop where
  /-- The build parameters are legal (R6, R145). -/
  cfgLegal : s.cfg.wf = true
  /-- No operation is in progress. -/
  idle : s.seq = .idle
  /-- From `begin` on both pins are outputs (R37). -/
  outputs : s.ctl.init = true → s.pins.dirr.clk = .out ∧ s.pins.dirr.dio = .out
  /-- `QK = 1` implies `ND = 3` (R24). -/
  quirk : s.ctl.init = true → s.ctl.qk = true → s.ctl.nd = .three
  /-- A configured digit holds a SegmentCode, bit 7 zero (R26, R96). -/
  segments : s.ctl.init = true → ∀ d : Digit, d.val < s.ctl.nd.toNat → (s.ctl.dr.get d).toNat < 0x80
  /-- With the quirk, slot 3 holds the decimal point's on code or off code (R28). -/
  point : s.ctl.init = true → s.ctl.qk = true → s.ctl.dr.d3 = s.cfg.dpOnCode ∨ s.ctl.dr.d3 = dpOffCode
  /-- The device's memory is in its canonical form. -/
  memory : s.wire.dev.mem.wf = true
  /-- As long as the block does not drive both wires nothing has reached the device (log entry 8). -/
  unreached : s.pins.driven = false → s.wire.dev = .unknown ∧ s.wire.cur = [] ∧ s.wire.rx = []

/-- The device, once it has taken what is on its way, shows what `DR` holds (R76). -/
def ShadowAgrees (s : State) : Prop :=
  (∀ d : Digit, d.val < s.ctl.nd.toNat → s.wire.settled.mem.read (phys s.cfg d).val = some (s.ctl.dr.get d)) ∧
  (s.ctl.qk = true → s.wire.settled.mem.read (phys s.cfg 3).val = some s.ctl.dr.d3)

/-- The display operations of R76 that keep the shadow and the device together. DISPTEST is not among them, and neither
is a raw operation, which sends what the host asks for without writing `DR`. -/
def keepsShadow : Instr → Bool
  | .dispoff | .dispclear | .dispbright _ | .dispchar _ _ _ => true
  | .dispint8 _ _ _ | .dispint12 _ _ _ | .dispint16 _ _ _ | .dispdp _ => true
  | .wAuto | .wFixed | .wOff | .wOn _ | .wAddr _ | .wData _ => false
  | .start | .stop | .wrbyte _ | .bitdelay | .lookup _ | .sendcmd _ | .wrdigit _ _ | .wrrun _ _ => false
  | .beginDisp _ _ | .disptest _ => false

/-- The host operations, which the block runs; the others are wire bytes, which the device takes (R90). -/
def isHostOp : Instr → Bool
  | .wAuto | .wFixed | .wOff | .wOn _ | .wAddr _ | .wData _ => false
  | .start | .stop | .wrbyte _ | .bitdelay | .lookup _ | .sendcmd _ | .wrdigit _ _ | .wrrun _ _ => true
  | .beginDisp _ _ | .dispoff | .dispclear | .dispbright _ | .dispchar _ _ _ => true
  | .dispint8 _ _ _ | .dispint12 _ _ _ | .dispint16 _ _ _ | .dispdp _ | .disptest _ => true

/-- No transaction is open and the block drives both wires. -/
def BusIdle (s : State) : Prop := s.wire.bus = .closed ∧ s.pins.driven = true

/-- The bus after a transaction: both latches high, both pins outputs (R112, R225). -/
def LinesHigh (s : State) : Prop :=
  s.pins.lat.clk = .high ∧ s.pins.lat.dio = .high ∧ s.pins.dirr.clk = .out ∧ s.pins.dirr.dio = .out

/-! ## What an operation sends -/

/-- The environment's next k answers, in order (R71). -/
def Env.answersFor (e : Env) (k : Nat) : List Level :=
  match k with
  | 0 => []
  | k + 1 => e.peek :: e.advance.answersFor k

/-- The environment after k answers. -/
def Env.after (e : Env) (k : Nat) : Env :=
  match k with
  | 0 => e
  | k + 1 => e.advance.after k

/-- Bytes, each with the answer the environment gives it. -/
def answered (e : Env) (bs : List Byte) : List (Byte × Level) := bs.zip (e.answersFor bs.length)

/-- The events of transactions sent one after another: nothing else is emitted (R64, R122). -/
def sentEvents (tBit : Nat) (e : Env) (txs : List (List Byte)) : List Event :=
  match txs with
  | [] => []
  | tx :: rest => transactionEvents tBit (answered e tx) ++ sentEvents tBit (e.after tx.length) rest

/-- One transaction as the device sees it (R67). -/
def Wire.transaction (w : Wire) (bytes : List (Byte × Level)) : Wire :=
  (bytes.foldl (fun w x => w.byte true x.1 (ackOf x.2)) (w.start true)).stop true

/-- The wire after transactions sent one after another. -/
def sentWire (w : Wire) (e : Env) (txs : List (List Byte)) : Wire :=
  match txs with
  | [] => w
  | tx :: rest => sentWire (w.transaction (answered e tx)) (e.after tx.length) rest

/-- Going from s to t the block sends exactly these transactions, byte for byte and event for event, whatever the
environment answers, and touches nothing of the controller, the operations presented or the sequencer. `DADDR` is left to
the statement that uses it. Nothing is said of the result port, of which R41 gives only two values (log entry 5), nor of
the device when a transaction was open (log entry 8). -/
structure Sends (s t : State) (txs : List (List Byte)) : Prop where
  cfg : t.cfg = s.cfg
  ctl : t.ctl = s.ctl
  seq : t.seq = s.seq
  ops : t.port.ops = s.port.ops
  /-- Exactly the events of the transactions. -/
  trace : t.trace = s.trace ++ sentEvents s.cfg.tBit s.env txs
  /-- One answer per byte. -/
  env : t.env = s.env.after txs.flatten.length
  /-- The bus idles with both lines high (R112), the data pin an output (R119). -/
  lat : t.pins.lat = ⟨.high, .high⟩
  dirr : t.pins.dirr = { s.pins.dirr with dio := .out }
  sr : t.eng.sr = 0
  bc : t.eng.bc = 8
  /-- `ACK` is the last answer (R31). -/
  ack : some t.eng.ack = (s.env.answersFor txs.flatten.length).getLast?.map ackOf
  /-- `NAK` is set by any byte not acknowledged (R32). -/
  nak : t.eng.nak = (s.env.answersFor txs.flatten.length).foldl nakAfter s.eng.nak
  /-- The device sees the transactions when none was open and both pins were outputs (R67). -/
  wire : BusIdle s → t.wire = sentWire s.wire s.env txs

/-! ## What XFER sends and what a display operation leaves -/

/-- One WRDIGIT per code, ascending (R94, R155). -/
def digitTransactions (cfg : Config) (d : Digit) (vs : List Byte) : List (List Byte) :=
  match vs with
  | [] => []
  | v :: rest => [0x44] :: [0xC0 + digitByte (phys cfg d), v] :: digitTransactions cfg (d + 1) rest

/-- The transactions of `XFER d, [v0, …]` (R94, R155, R156). -/
def xferTransactions (cfg : Config) (d : Digit) (vs : List Byte) : List (List Byte) :=
  match cfg.mode with
  | .autoIncrement => [[0x40], (0xC0 + digitByte d) :: vs]
  | .fixed => digitTransactions cfg d vs

/-- `DADDR` after XFER of a non-empty list (R157): the last digit's physical index under Fixed, `(d + k) mod 4` under
AutoIncrement. -/
def xferDaddr (cfg : Config) (d : Digit) (vs : List Byte) : Digit :=
  match cfg.mode with
  | .autoIncrement => Fin.ofNat 4 (d.val + vs.length)
  | .fixed => phys cfg (Fin.ofNat 4 (d.val + vs.length - 1))

/-- `DR[d] <- v0 ; DR[d+1] <- v1 ; …`. -/
def Quad.setRun {α : Type} (q : Quad α) (d : Digit) (vs : List α) : Quad α :=
  match vs with
  | [] => q
  | v :: rest => Quad.setRun (q.set d v) (d + 1) rest

/-- From s to t a display operation writes the codes to `DR` from digit d on, transmits them with XFER, and changes nothing
else (R182). -/
structure Shows (s t : State) (d : Digit) (vs : List Byte) : Prop where
  sends : Sends (s.putCtl { s.ctl with dr := Quad.setRun s.ctl.dr d vs }) t (xferTransactions s.cfg d vs)
  daddr : t.eng.daddr = xferDaddr s.cfg d vs

/-- The next k answers of the script are acknowledgements (R71). -/
def Responsive (k : Nat) (s : State) : Prop := ∃ rest, s.env.answers = List.replicate k .low ++ rest

end Sys2Proof.Machine
end

