-- ==== Sys2Proof/Certificates/Slice0/Obligations.lean ====
section
/-! DEFINITION. The statements. `exec` is the meaning of an instruction; a host operation is one of START to DISPTEST, a wire
byte one of W.AUTO to W.DATA. -/

open Sys2Proof Sys2Proof.Machine

/-! ## Reset and the step -/

/-- What reset leaves: `INIT`, `SEQ` and the unknown device are the spec's (sections on reset and on the reference device); the
empty trace, ports and framing are the model's (log entry 10), and so is that the build is a legal one (log entry 2). -/
def Obligations.ResetIsUninitialized : Prop :=
  State.reset.ctl.init = false ∧ State.reset.seq = .idle ∧ State.reset.trace = [] ∧ State.reset.port.ops = [] ∧
  State.reset.wire.bus = .closed ∧ State.reset.wire.cur = [] ∧ State.reset.wire.rx = [] ∧
  State.reset.wire.dev = ⟨none, none, [], none, none⟩ ∧ State.reset.cfg.wf = true

/-- From idle, with nothing on its way to the device, a step takes the next operation word off the ports and
runs the operation it decodes to; a word that decodes to none is refused; with no operation presented nothing changes. How a step takes what it runs is the model's (log entry 7). -/
def Obligations.StepRunsThePresentedOperation : Prop :=
  ∀ (s : State), s.seq = .idle → s.wire.cur = [] → s.wire.rx = [] →
    (∀ (w : OpWord) (q : List OpWord), s.port.ops = w :: q →
      (∀ i, decode (.op w) = .ok i → step s = exec i { s with port := { s.port with ops := q } }) ∧
      (∀ e, decode (.op w) = .error e → step s = .refused (.badWord e))) ∧
    (s.port.ops = [] → step s = .next s)

/-- From idle, a step takes the next wire byte and runs what it decodes to at its position: the first byte of the next clean
transaction, or a data byte of the one being taken; a first byte outside the table makes the device unknown (R68). The device
taking one byte a step is the model's (log entry 7), and so is that an unlisted byte is no refusal (log entry 20). -/
def Obligations.StepRunsTheNextWireByte : Prop :=
  ∀ (s : State), s.seq = .idle →
    (∀ (b : Byte) (rest : List Byte) (q : List (Byte × List Byte)), s.wire.cur = [] → s.wire.rx = (b, rest) :: q →
      (∀ i, decode (.wire .first b) = .ok i → step s = exec i { s with wire := { s.wire with cur := rest, rx := q } }) ∧
      (∀ e, decode (.wire .first b) = .error e →
        step s = .next { s with wire := { s.wire with cur := [], rx := q, dev := ⟨none, none, [], none, none⟩ } })) ∧
    (∀ (v : Byte) (rest : List Byte), s.wire.cur = v :: rest →
      step s = exec (.wData v) { s with wire := { s.wire with cur := rest } })

/-- R42, R110, R208, R220: right after reset, a presented BEGIN, START, STOP, WRBYTE, BITDELAY or LOOKUP word completes, and
a presented DISPOFF word is refused. -/
def Obligations.FirstOperationAfterReset : Prop :=
  (∀ n ∈ [0x00, 0x01, 0x02, 0x03, 0x04, 0x08], ∃ t, step (State.reset.withFetchWord 8 n) = .next t) ∧
  step (State.reset.withFetchWord 8 0x09) = .refused .notReady

/-! ## Encodings -/

/-- R81 to R85, R87, R90, R98: written-out encodings decode to what they stand for, and unassigned ones to nothing. -/
def Obligations.WrittenOutEncodingsDecode : Prop :=
  decode (.wire .first 0b01000000) = .ok .wAuto ∧
  decode (.wire .first 0b01000100) = .ok .wFixed ∧
  decode (.wire .first 0b10000000) = .ok .wOff ∧
  decode (.wire .first 0b10001010) = .ok (.wOn 2) ∧
  decode (.wire .first 0b11000011) = .ok (.wAddr 3) ∧
  decode (.wire .data 0b01000000) = .ok (.wData 0x40) ∧
  decode (.wire .first 0b10000001) = .error (.unlistedWireByte 0x81) ∧
  decode (.op ⟨0b00010, 0x44, 0, false, ⟨0, 0, 0, 0⟩⟩) = .ok (.wrbyte 0x44) ∧
  decode (.op ⟨0b00111, 0x02, 0x0003, false, ⟨1, 2, 3, 9⟩⟩) = .ok (.wrrun 2 [1, 2, 3]) ∧
  decode (.op ⟨0b01000, 0x03, 0x0002, true, ⟨7, 7, 7, 7⟩⟩) = .ok (.beginDisp 3 2) ∧
  decode (.op ⟨0b01111, 0x00, 0x04D2, true, ⟨0, 0, 0, 0⟩⟩) = .ok (.dispint16 0 1234 true) ∧
  decode (.op ⟨0b00110, 0x04, 0x0001, false, ⟨0, 0, 0, 0⟩⟩) = .error .strayOperandBits ∧
  decode (.op ⟨0b10010, 0, 0, false, ⟨0, 0, 0, 0⟩⟩) = .error (.unassignedOpsel 0x12)

/-- Every well-formed instruction, with every operand at every value, is what its encoding decodes to. -/
def Obligations.DecodeOfEncodeIsTheInstruction : Prop :=
  ∀ i : Instr, i.wellFormed = true → decode (encode i) = .ok i

/-- R87, R95: a wire byte decodes to nothing exactly when it stands first and is outside the table. -/
def Obligations.FirstBytesOutsideTheTableAreRejected : Prop :=
  ∀ (p : Pos) (b : Byte), (∃ e, decode (.wire p b) = .error e) ↔
    (p = .first ∧ ¬(b = 0x40 ∨ b = 0x44 ∨ b = 0x80 ∨ (0x88 ≤ b.toNat ∧ b.toNat ≤ 0x8F) ∨ (0xC0 ≤ b.toNat ∧ b.toNat ≤ 0xC3)))

/-! ## The protocol engine -/

/-- R111. -/
def Obligations.StartEmitsTheStartCondition : Prop :=
  ∀ s : State, ∃ t, exec .start s = .next t ∧
    t.trace = s.trace ++ [.wr .clk .high, .wr .dio .high, .wr .dio .low, .wr .clk .low] ∧
    t.pins.lat.clk = .low ∧ t.pins.lat.dio = .low ∧ t.pins.dirr = s.pins.dirr ∧
    t.cfg = s.cfg ∧ t.ctl = s.ctl ∧ t.eng = s.eng ∧ t.seq = s.seq ∧ t.port.ops = s.port.ops ∧ t.env = s.env

/-- R112. -/
def Obligations.StopEmitsTheStopCondition : Prop :=
  ∀ s : State, ∃ t, exec .stop s = .next t ∧
    t.trace = s.trace ++ [.wr .clk .low, .wr .dio .low, .wr .clk .high, .wr .dio .high] ∧
    t.pins.lat.clk = .high ∧ t.pins.lat.dio = .high ∧ t.pins.dirr = s.pins.dirr ∧
    t.cfg = s.cfg ∧ t.ctl = s.ctl ∧ t.eng = s.eng ∧ t.seq = s.seq ∧ t.port.ops = s.port.ops ∧ t.env = s.env

/-- R113, R120: the bits least significant first, the acknowledgement phase for the environment's answer, the registers
afterwards, and the result, which is bit 0 of the port (R41). -/
def Obligations.WrbyteSendsBitsAndSamplesTheAnswer : Prop :=
  ∀ (v : Byte) (s : State), ∃ t, exec (.wrbyte v) s = .next t ∧
    t.trace = s.trace ++
      ((List.range 8).flatMap fun k =>
        [.wr .clk .low, .wr .dio (if v.getLsbD k = true then .high else .low), .wr .clk .high]) ++
      [.dir .dio .inp, .wr .clk .low, .wr .clk .high, .dly s.cfg.tBit, .rd .dio s.env.peek] ++
      (if s.env.peek = .low then [.wr .dio .low] else []) ++ [.dly s.cfg.tBit, .dir .dio .out] ∧
    t.eng.sr = 0 ∧ t.eng.bc = 8 ∧ t.eng.ack = decide (s.env.peek = .low) ∧
    t.eng.nak = (s.eng.nak || decide (s.env.peek = .high)) ∧ t.eng.daddr = s.eng.daddr ∧
    t.pins.lat.clk = .high ∧
    t.pins.lat.dio = (if s.env.peek = .low then .low else if v.getLsbD 7 = true then .high else .low) ∧
    t.pins.dirr.dio = .out ∧ t.pins.dirr.clk = s.pins.dirr.clk ∧
    t.port.res.getLsbD 0 = decide (s.env.peek = .low) ∧ t.port.ops = s.port.ops ∧ t.env = s.env.advance ∧
    t.cfg = s.cfg ∧ t.ctl = s.ctl ∧ t.seq = s.seq

/-- R121: one delay event and nothing else. -/
def Obligations.BitdelayOnlyDelays : Prop :=
  ∀ s : State, exec .bitdelay s = .next { s with trace := s.trace ++ [.dly s.cfg.tBit] }

/-- What a raw START, WRBYTE or STOP makes of the framing and the device (R67, R70, R122): from an idle bus START opens a
transaction, WRBYTE adds its byte with its answer, STOP passes a clean one on, each with both pins outputs when it begins; START
inside an open transaction leaves the pointer and the memory unknown (R70). That every element is unknown then, and after framing out of a bracket, in an empty one or
with a pin that is not an output, that the new START opens a transaction, and that an open transaction leaves the device as it was
until then, is the model's (log entry 8). -/
def Obligations.RawFramingOpensAndClosesTransactions : Prop :=
  ∀ (v : Byte) (s : State), ∃ ts tb tp,
    exec .start s = .next ts ∧ exec (.wrbyte v) s = .next tb ∧ exec .stop s = .next tp ∧
    (s.pins.driven = true → s.wire.bus = .closed → ts.wire = { s.wire with bus := .opened [] }) ∧
    (s.pins.driven = true → ∀ bs, s.wire.bus = .opened bs → ts.wire = ⟨.opened [], [], [], ⟨none, none, [], none, none⟩⟩) ∧
    (s.pins.driven = false → ts.wire = ⟨.closed, [], [], ⟨none, none, [], none, none⟩⟩) ∧
    (∀ bs, s.wire.bus = .opened bs → ts.wire.settled.ptr = none ∧ ∀ a, ts.wire.settled.mem.read a = none) ∧
    (s.pins.driven = true → ∀ bs, s.wire.bus = .opened bs →
      tb.wire = { s.wire with bus := .opened (bs ++ [(v, decide (s.env.peek = .low))]) }) ∧
    (s.pins.driven = false ∨ s.wire.bus = .closed → tb.wire = ⟨.closed, [], [], ⟨none, none, [], none, none⟩⟩) ∧
    (s.pins.driven = true → ∀ b bs, s.wire.bus = .opened (b :: bs) → (∀ x ∈ b :: bs, x.2 = true) →
      tp.wire = { s.wire with bus := .closed, rx := s.wire.rx ++ [(b.1, bs.map fun x => x.1)] }) ∧
    (s.pins.driven = false ∨ s.wire.bus = .closed ∨ (∃ bs, s.wire.bus = .opened bs ∧ (bs = [] ∨ ∃ x ∈ bs, x.2 = false)) →
      tp.wire = ⟨.closed, [], [], ⟨none, none, [], none, none⟩⟩)

/-- R115: in the 24 events of the bits the data line is written only while the clock latch is low, whatever it was
before. -/
def Obligations.DataLineChangesOnlyWhileClockIsLow : Prop :=
  ∀ (v : Byte) (s t : State), exec (.wrbyte v) s = .next t →
    dataOnlyWhileClockLow s.pins.lat.clk ((t.trace.drop s.trace.length).take 24) = true

/-- R127, R237: a transaction of m bytes has 8 + 32 m events less one for each byte not acknowledged, 2 m delays, m samples and
9 m + 2 clock-high writes. -/
def Obligations.TransactionEventCounts : Prop :=
  ∀ (tBit : Nat) (bytes : List (Byte × Level)),
    (transactionEvents tBit bytes).length + bytes.countP (fun x => decide (x.2 = .high)) = 8 + 32 * bytes.length ∧
    (transactionEvents tBit bytes).countP isDelay = 2 * bytes.length ∧
    (transactionEvents tBit bytes).countP isSample = bytes.length ∧
    (transactionEvents tBit bytes).countP isClockHigh = 9 * bytes.length + 2

/-- R125: in the events of START, STOP and WRBYTE operations issued in any order, the decoder finds every byte with its
acknowledgement, inside a bracket or not, and the transactions, the brackets from a START to the next STOP; and so every
transaction of transactions sent one after another. What counts as a transaction where a bracket is empty, or a START stands in
an open one, is the model's (log entry 22). -/
def Obligations.TraceDecoderReadsWhatWasSent : Prop :=
  ∀ tBit : Nat,
    (∀ ops : List RawOp, traceBytes (ops.flatMap (RawOp.events tBit)) = rawBytes ops ∧
      transactions (ops.flatMap (RawOp.events tBit)) = rawBrackets none ops) ∧
    (∀ txs : List (List (Byte × Level)),
      traceBytes (txs.flatMap (transactionEvents tBit)) = txs.flatten.map (fun x => (x.1, decide (x.2 = .low))) ∧
      transactions (txs.flatMap (transactionEvents tBit)) = txs.map fun t => t.map fun x => (x.1, decide (x.2 = .low)))

/-! ## The character encoder -/

/-- R142, R143: the table entry below 43, the blank code 0x00 from 43 on; only the result port changes, in every state. -/
def Obligations.LookupAnswersEntryOrBlank : Prop :=
  ∀ (idx : Byte) (s : State),
    (∀ c, idx.toNat < 43 → s.cfg.chartab[idx.toNat]? = some c →
      exec (.lookup idx) s = .next { s with port := { s.port with res := c } }) ∧
    (43 ≤ idx.toNat → exec (.lookup idx) s = .next { s with port := { s.port with res := 0x00 } })

/-- R96, R145: with a legal table every code LOOKUP answers is a SegmentCode, its bit 7 zero. -/
def Obligations.LookupCodeHasBitSevenClear : Prop :=
  ∀ (idx : Byte) (s t : State), s.cfg.wf = true → exec (.lookup idx) s = .next t → t.port.res.toNat < 0x80

/-! ## Digit addressing -/

/-- R154: SENDCMD is the one-byte transaction [c]; `DADDR` is unchanged; and it is START ; WRBYTE c ; STOP, in the trace, on the
wire and in every register (the result port of that WRBYTE apart). -/
def Obligations.SendcmdIsAOneByteTransaction : Prop :=
  ∀ (c : Byte) (s : State), s.ctl.init = true → ∃ t u, exec (.sendcmd c) s = .next t ∧ Sends s t [[c]] ∧
    t.eng.daddr = s.eng.daddr ∧ execOps [.ok .start, .ok (.wrbyte c), .ok .stop] s = .next u ∧ t = { u with port := t.port } ∧
    t.port.ops = u.port.ops

/-- R155, R157: WRDIGIT is [0x44] and [0xC0 + phys(d), v], the code unmasked; `DADDR` is phys(d); `DR` is not written. -/
def Obligations.WrdigitSendsModeThenAddressedCode : Prop :=
  ∀ (d : Digit) (v : Byte) (s : State), s.ctl.init = true → s.cfg.mode = .fixed →
    ∃ t, exec (.wrdigit d v) s = .next t ∧ Sends s t [[0x44], [0xC0 + digitByte (phys s.cfg d), v]] ∧ t.eng.daddr = phys s.cfg d

/-- R156, R157: WRRUN is [0x40] and [0xC0 + d, v0, …], the codes unmasked and in order; `DADDR` is (d + k) mod 4; `DR` is not
written. -/
def Obligations.WrrunSendsModeThenBurst : Prop :=
  ∀ (d : Digit) (vs : List Byte) (s : State), s.ctl.init = true → s.cfg.mode = .autoIncrement →
    1 ≤ vs.length → d.val + vs.length ≤ 4 →
    ∃ t, exec (.wrrun d vs) s = .next t ∧ Sends s t [[0x40], (0xC0 + digitByte d) :: vs] ∧
      t.eng.daddr.val = (d.val + vs.length) % 4

/-- R34, R63: a legal build's multiplexer is a permutation of the digits, and the identity without a map or under
AutoIncrement. -/
def Obligations.MultiplexerIsAPermutation : Prop :=
  ∀ cfg : Config, cfg.wf = true →
    (∀ d e : Digit, phys cfg d = phys cfg e → d = e) ∧
    (cfg.mode = .autoIncrement ∨ cfg.digitMap = none → ∀ d, phys cfg d = d) ∧
    (∀ m, cfg.mode = .fixed → cfg.digitMap = some m → ∀ d, phys cfg d = m.get d)

/-- R94: XFER does what its expansion into host operations does where the run fits, and where it does not the expansion is
refused: as a word whose digit does not fit its field, or as a WRRUN out of bounds (R59, R91; the split is log entry 15). -/
def Obligations.XferEqualsItsExpansion : Prop :=
  ∀ (s : State) (vs : List Byte), s.ctl.init = true → 1 ≤ vs.length →
    (∀ d : Digit, d.val + vs.length ≤ 4 →
      execOps (xferOps s.cfg.mode d.val vs) s = .next (runAll (xferList s.cfg d vs) s)) ∧
    (∀ d : Nat, 4 < d + vs.length → execOps (xferOps s.cfg.mode d vs) s =
      .refused (if s.cfg.mode = .autoIncrement ∧ d < 4 then .outOfBounds else .badWord .strayOperandBits))

/-! ## The display controller -/

/-- R171: BEGIN from any state. `NAK` is 1 afterwards exactly when a byte of this BEGIN was not acknowledged. -/
def Obligations.BeginConfiguresClearsAndLights : Prop :=
  ∀ (n b : Byte) (s : State), ∃ t nd qk dr txs, exec (.beginDisp n b) s = .next t ∧
    nd.toNat = (if 1 ≤ n.toNat ∧ n.toNat ≤ 4 then n.toNat else 1) ∧
    qk = (s.cfg.quirkReq && decide (nd.toNat = 3)) ∧
    dr = (if qk = true then (Quad.setRun s.ctl.dr 0 (List.replicate nd.toNat 0x00)).set 3 0x00
      else Quad.setRun s.ctl.dr 0 (List.replicate nd.toNat 0x00)) ∧
    txs = xferTransactions s.cfg 0 (List.replicate nd.toNat 0x00) ++
      (if qk = true then xferTransactions s.cfg 3 [0x00] else []) ++ [[0x88 + (b.setWidth 3).setWidth 8]] ∧
    t.ctl = { init := true, nd := nd, br := b.setWidth 3, qk := qk, dr := dr } ∧
    t.trace = s.trace ++ [.dir .clk .out, .dir .dio .out] ++ sentEvents s.cfg.tBit s.env txs ∧
    t.pins.dirr.clk = .out ∧ t.pins.dirr.dio = .out ∧
    t.eng.nak = decide (.high ∈ s.env.answersFor txs.flatten.length) ∧
    t.env = s.env.after txs.flatten.length ∧ t.cfg = s.cfg ∧ t.seq = s.seq ∧ t.port.ops = s.port.ops

/-- R225, and the column "after" of R42: what holds when BEGIN has returned, `SR`, `BC` and `DADDR` among it. -/
def Obligations.LaunchPremisesHoldAfterBegin : Prop :=
  ∀ (n b : Byte) (s t : State), s.seq = .idle → exec (.beginDisp n b) s = .next t →
    t.ctl.init = true ∧ 1 ≤ t.ctl.nd.toNat ∧ t.ctl.nd.toNat ≤ 4 ∧ (t.ctl.qk = true → t.ctl.nd.toNat = 3) ∧
    (∀ d : Digit, d.val < t.ctl.nd.toNat → t.ctl.dr.get d = 0x00) ∧ (t.ctl.qk = true → t.ctl.dr.get 3 = 0x00) ∧
    t.ctl.br.toNat = b.toNat % 8 ∧ LinesHigh t ∧ t.seq = .idle ∧ t.eng.sr = 0 ∧ t.eng.bc = 8 ∧
    (∀ d : Digit, s.cfg.mode = .fixed → d.val = (if t.ctl.qk = true then 3 else t.ctl.nd.toNat - 1) →
      t.eng.daddr = phys s.cfg d) ∧
    (s.cfg.mode = .autoIncrement → t.eng.daddr.val = if t.ctl.qk = true then 0 else t.ctl.nd.toNat % 4) ∧
    (∃ es a, t.trace = s.trace ++ es ++ ackEvents s.cfg.tBit a ++ stopEvents ∧ t.eng.ack = decide (a = .low)) ∧
    (∀ d : Digit, t.ctl.nd.toNat ≤ d.val → t.ctl.qk = false → t.ctl.dr.get d = s.ctl.dr.get d)

/-- R172. -/
def Obligations.DispoffSendsTheOffCommand : Prop :=
  ∀ s : State, s.ctl.init = true → ∃ t, exec .dispoff s = .next t ∧ Sends s t [[0x80]] ∧ t.eng.daddr = s.eng.daddr

/-- R173: every configured digit blank, then the decimal point off when the quirk is active. -/
def Obligations.DispclearBlanksTheConfiguredDigits : Prop :=
  ∀ s : State, s.ctl.init = true →
    (s.ctl.qk = false → ∃ t, exec .dispclear s = .next t ∧ Shows s t 0 (List.replicate s.ctl.nd.toNat 0x00)) ∧
    (s.ctl.qk = true → ∃ u t, exec .dispclear s = .next t ∧ Shows s u 0 (List.replicate s.ctl.nd.toNat 0x00) ∧
      Shows u t 3 [0x00])

/-- R174: `BR` takes level & 7 and the command 0x88 + (level & 7) is sent. -/
def Obligations.DispbrightStoresAndSendsTheMaskedLevel : Prop :=
  ∀ (l : Byte) (s : State), s.ctl.init = true → ∃ t, exec (.dispbright l) s = .next t ∧
    Sends { s with ctl := { s.ctl with br := l.setWidth 3 } } t [[BitVec.ofNat 8 (0x88 + l.toNat % 8)]] ∧
    t.eng.daddr = s.eng.daddr

/-- R175, R184: the digit clamped to the last one, a raw value masked to 7 bits, another one looked up. -/
def Obligations.DispcharShowsOneClampedDigit : Prop :=
  ∀ (d v : Byte) (raw : Bool) (s : State) (d' : Digit), s.ctl.init = true → d'.val = min d.toNat (s.ctl.nd.toNat - 1) →
    ∃ t, exec (.dispchar d v raw) s = .next t ∧
      Shows s t d' [if raw = true then v &&& 0x7F else if v.toNat < 43 then s.cfg.chartab.getD v.toNat 0x00 else 0x00]

/-- R176 (with R184, R185): two digits, decimal saturated at 99 or the two nibbles, most significant first; with fewer than
two digits configured, nothing. -/
def Obligations.Dispint8ShowsTwoDigits : Prop :=
  ∀ (st v : Byte) (dec : Bool) (s : State), s.ctl.init = true →
    (∀ d : Digit, 2 ≤ s.ctl.nd.toNat → d.val = min st.toNat (s.ctl.nd.toNat - 2) →
      ∃ t, exec (.dispint8 st v dec) s = .next t ∧
        Shows s t d ((if dec = true then [min v.toNat 99 / 10, min v.toNat 99 % 10] else [v.toNat / 16, v.toNat % 16]).map
          (lookupCode s.cfg))) ∧
    (s.ctl.nd.toNat < 2 → exec (.dispint8 st v dec) s = .next s)

/-- R177 (with R184, R185): three digits, decimal saturated at 999 or hexadecimal saturated at 0xFFF; with fewer than three
digits configured, nothing. -/
def Obligations.Dispint12ShowsThreeDigits : Prop :=
  ∀ (st : Byte) (v : BitVec 16) (dec : Bool) (s : State), s.ctl.init = true →
    (∀ d : Digit, 3 ≤ s.ctl.nd.toNat → d.val = min st.toNat (s.ctl.nd.toNat - 3) →
      ∃ t, exec (.dispint12 st v dec) s = .next t ∧
        Shows s t d ((if dec = true then [min v.toNat 999 / 100, min v.toNat 999 / 10 % 10, min v.toNat 999 % 10]
          else [min v.toNat 0xFFF / 256, min v.toNat 0xFFF / 16 % 16, min v.toNat 0xFFF % 16]).map (lookupCode s.cfg))) ∧
    (s.ctl.nd.toNat < 3 → exec (.dispint12 st v dec) s = .next s)

/-- R178 (with R185): four digits from digit 0 on, decimal saturated at 9999 or the four nibbles; with fewer than four digits
configured, nothing. -/
def Obligations.Dispint16ShowsFourDigits : Prop :=
  ∀ (st : Byte) (v : BitVec 16) (dec : Bool) (s : State), s.ctl.init = true →
    (s.ctl.nd.toNat = 4 →
      ∃ t, exec (.dispint16 st v dec) s = .next t ∧
        Shows s t 0 ((if dec = true then
            [min v.toNat 9999 / 1000, min v.toNat 9999 / 100 % 10, min v.toNat 9999 / 10 % 10, min v.toNat 9999 % 10]
          else [v.toNat / 4096, v.toNat / 256 % 16, v.toNat / 16 % 16, v.toNat % 16]).map (lookupCode s.cfg))) ∧
    (s.ctl.nd.toNat < 4 → exec (.dispint16 st v dec) s = .next s)

/-- R186: with too few digits configured, or without the quirk, nothing changes at all. -/
def Obligations.InsufficientConfigurationIsASilentNoOp : Prop :=
  ∀ (st v8 : Byte) (v : BitVec 16) (f : Bool) (s : State), s.ctl.init = true →
    (s.ctl.nd.toNat < 2 → exec (.dispint8 st v8 f) s = .next s) ∧
    (s.ctl.nd.toNat < 3 → exec (.dispint12 st v f) s = .next s) ∧
    (s.ctl.nd.toNat < 4 → exec (.dispint16 st v f) s = .next s) ∧
    (s.ctl.qk = false → exec (.dispdp f) s = .next s)

/-- R179: with the quirk, the on code or 0x00 goes to `DR[3]` and to logical digit 3; without it, nothing. -/
def Obligations.DispdpWritesTheQuirkDigit : Prop :=
  ∀ (on : Bool) (s : State), s.ctl.init = true →
    (s.ctl.qk = true → ∃ t, exec (.dispdp on) s = .next t ∧ Shows s t 3 [if on = true then s.cfg.dpOnCode else 0x00]) ∧
    (s.ctl.qk = false → exec (.dispdp on) s = .next s)

/-- R181: all segments on, or the shadow sent again, with the decimal point when the quirk is active; `DR` is not written;
`DADDR` is what the last XFER leaves (R157). The sequence is the spec's own reading (D23, log entry 16). -/
def Obligations.DisptestSendsAllOnOrTheShadow : Prop :=
  ∀ (on : Bool) (s : State), s.ctl.init = true → s.cfg.hasTest = true → ∃ t vs c, exec (.disptest on) s = .next t ∧
    vs = (if on = true then List.replicate s.ctl.nd.toNat 0x7F
      else [s.ctl.dr.get 0, s.ctl.dr.get 1, s.ctl.dr.get 2, s.ctl.dr.get 3].take s.ctl.nd.toNat) ∧
    c = (if on = true then s.cfg.dpOnCode else s.ctl.dr.get 3) ∧
    Sends s t (xferTransactions s.cfg 0 vs ++ (if s.ctl.qk = true then xferTransactions s.cfg 3 [c] else [])) ∧
    t.eng.daddr = if s.ctl.qk = true then xferDaddr s.cfg 3 [c] else xferDaddr s.cfg 0 vs

/-- R185: a decimal value above the field's limit renders as the limit, and a 12-bit hexadecimal one as 0xFFF. -/
def Obligations.ValuesAboveTheLimitRenderAsTheLimit : Prop :=
  ∀ (st v8 : Byte) (v : BitVec 16) (s : State),
    (99 ≤ v8.toNat → exec (.dispint8 st v8 true) s = exec (.dispint8 st 99 true) s) ∧
    (999 ≤ v.toNat → exec (.dispint12 st v true) s = exec (.dispint12 st 999 true) s) ∧
    (0xFFF ≤ v.toNat → exec (.dispint12 st v false) s = exec (.dispint12 st 0xFFF false) s) ∧
    (9999 ≤ v.toNat → exec (.dispint16 st v true) s = exec (.dispint16 st 9999 true) s)

/-! ## Refusals -/

/-- R208, R170: before `begin`, every display operation but BEGIN, and SENDCMD, WRDIGIT, WRRUN, is refused. -/
def Obligations.DisplayOperationsBeforeBeginAreRefused : Prop :=
  ∀ (i : Instr) (s : State), s.ctl.init = false → isHostOp i = true →
    i.mnemonic ∉ ["START", "STOP", "WRBYTE", "BITDELAY", "LOOKUP", "BEGIN"] → exec i s = .refused .notReady

/-- R59, R98, R208: after `begin`, WRDIGIT under AutoIncrement, WRRUN under Fixed or out of bounds, and DISPTEST without
`HAS_TEST` are refused. -/
def Obligations.ForeignModeBoundsAndAbsentTestAreRefused : Prop :=
  ∀ (d : Digit) (v : Byte) (vs : List Byte) (on : Bool) (s : State), s.ctl.init = true →
    (s.cfg.mode = .autoIncrement → exec (.wrdigit d v) s = .refused .wrongMode) ∧
    (s.cfg.mode = .fixed → exec (.wrrun d vs) s = .refused .wrongMode) ∧
    (s.cfg.mode = .autoIncrement → vs.length = 0 ∨ 4 < d.val + vs.length → exec (.wrrun d vs) s = .refused .outOfBounds) ∧
    (s.cfg.hasTest = false → exec (.disptest on) s = .refused .noTest)

/-- R200, R208: nothing else is refused: every well-formed instruction completes in every ready state of its mode. -/
def Obligations.EveryInstructionCompletesWhenReady : Prop :=
  ∀ (i : Instr) (s : State), s.ctl.init = true → i.wellFormed = true →
    (i.mnemonic = "WRDIGIT" → s.cfg.mode = .fixed) → (i.mnemonic = "WRRUN" → s.cfg.mode = .autoIncrement) →
    (i.mnemonic = "DISPTEST" → s.cfg.hasTest = true) → ∃ t, exec i s = .next t

/-! ## The wire bytes and the reference device -/

/-- R68: a command alone in its transaction sets its elements of the device and no others; with a further byte every element
becomes unknown. An address byte loads the device's pointer and nothing else. Nothing but the device and the byte stream
changes. -/
def Obligations.WireCommandsAndAddressesSetTheDevice : Prop :=
  ∀ (l : BitVec 3) (p : Digit) (s : State), ∃ ta tf tx tn,
    exec .wAuto s = .next ta ∧ exec .wFixed s = .next tf ∧ exec .wOff s = .next tx ∧ exec (.wOn l) s = .next tn ∧
    exec (.wAddr p) s = .next { s with wire := { s.wire with dev := { s.wire.dev with ptr := some p } } } ∧
    (s.wire.cur = [] →
      ta = { s with wire := { s.wire with dev := { s.wire.dev with mode := some .autoIncrement } } } ∧
      tf = { s with wire := { s.wire with dev := { s.wire.dev with mode := some .fixed } } } ∧
      tx = { s with wire := { s.wire with dev := { s.wire.dev with on := some false } } } ∧
      tn = { s with wire := { s.wire with dev := { s.wire.dev with on := some true, br := some l } } }) ∧
    (s.wire.cur ≠ [] → ∀ t ∈ [ta, tf, tx, tn],
      t = { s with wire := { s.wire with cur := [], dev := ⟨none, none, [], none, none⟩ } })

/-- R69: a data byte is stored at the pointer; under auto-increment the pointer moves on, past address 3 to unknown; under
fixed mode a further byte, and an unknown pointer or mode, make the memory unknown. Every other address reads as before. -/
def Obligations.WireDataIsStoredAtThePointer : Prop :=
  ∀ (v : Byte) (s : State), ∃ t, exec (.wData v) s = .next t ∧
    t.cfg = s.cfg ∧ t.ctl = s.ctl ∧ t.eng = s.eng ∧ t.pins = s.pins ∧ t.seq = s.seq ∧ t.trace = s.trace ∧ t.port = s.port ∧
    t.env = s.env ∧ t.wire.bus = s.wire.bus ∧ t.wire.rx = s.wire.rx ∧
    t.wire.dev.mode = s.wire.dev.mode ∧ t.wire.dev.on = s.wire.dev.on ∧ t.wire.dev.br = s.wire.dev.br ∧
    (∀ p : Digit, s.wire.dev.ptr = some p → s.wire.dev.mode = some .autoIncrement →
      (∀ a, t.wire.dev.mem.read a = if a = p.val then some v else s.wire.dev.mem.read a) ∧
      t.wire.dev.ptr = (if p.val < 3 then some (p + 1) else none) ∧ t.wire.cur = s.wire.cur) ∧
    (∀ p : Digit, s.wire.dev.ptr = some p → s.wire.dev.mode = some .fixed → s.wire.cur = [] →
      (∀ a, t.wire.dev.mem.read a = if a = p.val then some v else s.wire.dev.mem.read a) ∧
      t.wire.dev.ptr = some p ∧ t.wire.cur = []) ∧
    (∀ p : Digit, s.wire.dev.ptr = some p → s.wire.dev.mode = some .fixed → s.wire.cur ≠ [] →
      (∀ a, t.wire.dev.mem.read a = none) ∧ t.wire.dev.ptr = none ∧ t.wire.cur = []) ∧
    (s.wire.dev.ptr = none ∨ s.wire.dev.mode = none →
      (∀ a, t.wire.dev.mem.read a = none) ∧ t.wire.dev.ptr = s.wire.dev.ptr ∧ t.wire.cur = [])

/-- Taking its bytes one wire instruction a step, the device ends where R67 to R69 put it for whole transactions; each such step
completes and takes a byte. That a step takes one byte, before the next operation, is the model's (log entry 7), and so is that
an unlisted byte makes the device unknown and is no refusal (log entry 20). -/
def Obligations.DeviceStepsRefineWholeTransactions : Prop :=
  ∀ s : State, s.seq = .idle → (s.wire.cur ≠ [] ∨ s.wire.rx ≠ []) →
    ∃ t, step s = .next t ∧ t.wire.settled = s.wire.settled ∧ t = { s with wire := t.wire } ∧
      t.wire.cur.length + (t.wire.rx.map fun x => x.2.length + 1).sum <
        s.wire.cur.length + (s.wire.rx.map fun x => x.2.length + 1).sum

/-- R67: after a transaction with a byte not acknowledged every element of the device is unknown; a clean one reaches it. -/
def Obligations.OnlyCleanTransactionsReachTheDevice : Prop :=
  ∀ (s t : State) (b : Byte) (bs : List Byte), BusIdle s → Sends s t [b :: bs] →
    (.high ∈ s.env.answersFor (bs.length + 1) → t.wire.settled = ⟨none, none, [], none, none⟩) ∧
    (.high ∉ s.env.answersFor (bs.length + 1) → t.wire.settled = s.wire.settled.take b bs)

/-- R155, R69: a WRDIGIT with every byte acknowledged puts its code at phys(d) of the device and leaves every other address. -/
def Obligations.WrdigitStoresAtThePhysicalIndex : Prop :=
  ∀ (d : Digit) (v : Byte) (s : State), s.ctl.init = true → s.cfg.mode = .fixed → BusIdle s → Responsive 3 s →
    ∃ t, exec (.wrdigit d v) s = .next t ∧
      ∀ a, t.wire.settled.mem.read a = if a = (phys s.cfg d).val then some v else s.wire.settled.mem.read a

/-- R156, R69: a WRRUN with every byte acknowledged puts code j at address d + j and leaves every other address. -/
def Obligations.WrrunStoresAtConsecutiveAddresses : Prop :=
  ∀ (d : Digit) (vs : List Byte) (s : State), s.ctl.init = true → s.cfg.mode = .autoIncrement → 1 ≤ vs.length →
    d.val + vs.length ≤ 4 → BusIdle s → Responsive (vs.length + 2) s →
    ∃ t, exec (.wrrun d vs) s = .next t ∧
      ∀ a, t.wire.settled.mem.read a =
        if d.val ≤ a ∧ a < d.val + vs.length then vs[a - d.val]? else s.wire.settled.mem.read a

/-! ## Invariants and whole-machine rules -/

/-- The invariant of Safety.lean holds at reset. -/
def Obligations.ResetMeetsTheInvariant : Prop := Inv State.reset

/-- R24, R26, R28, R37, R96, and the model's own clauses on the build, the memory and a device not yet reached (log entries 2, 8
and 18): from every state that meets the invariant a step leads to one that meets it. -/
def Obligations.EveryStepKeepsTheInvariant : Prop :=
  ∀ s t : State, Inv s → step s = .next t → Inv t

/-- The device's memory keeps its canonical form, from every state that has it, also one no run reaches. -/
def Obligations.EveryStepKeepsTheMemoryCanonical : Prop :=
  ∀ s t : State, s.wire.dev.mem.wf = true → step s = .next t → t.wire.dev.mem.wf = true

/-- R8, R21, R150: no step changes a build parameter, and none clears `INIT`. -/
def Obligations.ParametersAndReadinessPersist : Prop :=
  ∀ s t : State, step s = .next t → t.cfg = s.cfg ∧ (s.ctl.init = true → t.ctl.init = true)

/-- R21 to R24: only BEGIN writes `INIT`, `ND` and `QK`, and only BEGIN and DISPBRIGHT write `BR`. That the result port is kept by
every instruction but LOOKUP and WRBYTE, and holds 0 or 1 after WRBYTE, is the model's (log entry 5). -/
def Obligations.OnlyTheirWritersWriteConfigurationAndResult : Prop :=
  ∀ (i : Instr) (s t : State), exec i s = .next t →
    (i.mnemonic ≠ "BEGIN" → t.ctl.init = s.ctl.init ∧ t.ctl.nd = s.ctl.nd ∧ t.ctl.qk = s.ctl.qk ∧
      (i.mnemonic ≠ "DISPBRIGHT" → t.ctl.br = s.ctl.br)) ∧
    (i.mnemonic ∉ ["LOOKUP", "WRBYTE"] → t.port = s.port) ∧
    (i.mnemonic = "WRBYTE" → t.port.res = 0 ∨ t.port.res = 1)

/-- R27: `DR` is written by BEGIN, DISPCLEAR, DISPCHAR, the number operations and DISPDP only. -/
def Obligations.OnlyTheListedOperationsWriteTheShadow : Prop :=
  ∀ (i : Instr) (s t : State), exec i s = .next t →
    i.mnemonic ∉ ["BEGIN", "DISPCLEAR", "DISPCHAR", "DISPINT8", "DISPINT12", "DISPINT16", "DISPDP"] → t.ctl.dr = s.ctl.dr

/-- R64: a step only adds to the trace. -/
def Obligations.TraceOnlyGrows : Prop :=
  ∀ s t : State, step s = .next t → ∃ es, t.trace = s.trace ++ es

/-- R31, R32: outside BEGIN `NAK` is never cleared, and it is set from 0 exactly when a sample read H; BEGIN clears it first, so
after BEGIN it is 1 exactly when a sample of that BEGIN read H. -/
def Obligations.NakIsSticky : Prop :=
  ∀ (i : Instr) (s t : State), exec i s = .next t →
    (i.mnemonic ≠ "BEGIN" → (s.eng.nak = true → t.eng.nak = true) ∧
      (s.eng.nak = false → (t.eng.nak = true ↔ .rd .dio .high ∈ t.trace.drop s.trace.length))) ∧
    (i.mnemonic = "BEGIN" → (t.eng.nak = true ↔ .rd .dio .high ∈ t.trace.drop s.trace.length))

/-- R123, R163: two states that differ only in the environment's answers run the same operation to the same byte lists, the same
bytes (those sent outside a bracket too), the same controller registers and the same `DADDR`. -/
def Obligations.AnswersNeverChangeWhatIsSent : Prop :=
  ∀ (i : Instr) (s t t' : State) (e : Env), exec i s = .next t → exec i { s with env := e } = .next t' →
    byteLists (t.trace.drop s.trace.length) = byteLists (t'.trace.drop s.trace.length) ∧
    (traceBytes (t.trace.drop s.trace.length)).map (fun x => x.1) =
      (traceBytes (t'.trace.drop s.trace.length)).map (fun x => x.1) ∧
    t.ctl = t'.ctl ∧ t.eng.daddr = t'.eng.daddr ∧ t.pins.dirr = t'.pins.dirr

/-- R76, R223: after a BEGIN in which every byte was acknowledged the device shows what `DR` holds, is in the build's addressing
mode, on, and at the level asked for. That the device follows the first START of BEGIN also when a transaction was open or a pin
was no output is the model's (log entry 8). -/
def Obligations.BeginEstablishesShadowAgreement : Prop :=
  ∀ (n b : Byte) (s t : State), s.cfg.wf = true → exec (.beginDisp n b) s = .next t → t.eng.nak = false →
    ShadowAgrees t ∧ t.wire.settled.mode = some s.cfg.mode ∧ t.wire.settled.on = some true ∧
    t.wire.settled.br = some (b.setWidth 3)

/-- R76: every display operation but DISPTEST keeps shadow agreement while every byte since BEGIN was acknowledged. -/
def Obligations.DisplayOperationsKeepShadowAgreement : Prop :=
  ∀ (i : Instr) (s t : State), Inv s → s.ctl.init = true → s.wire.bus = .closed → ShadowAgrees s → keepsShadow i = true →
    exec i s = .next t → t.eng.nak = false → ShadowAgrees t

/-- R76, R181: DISPTEST false, acknowledged, brings the device back to what `DR` holds, from whatever it showed. -/
def Obligations.TestOffRestoresShadowAgreement : Prop :=
  ∀ s t : State, Inv s → s.ctl.init = true → s.wire.bus = .closed → exec (.disptest false) s = .next t → t.eng.nak = false →
    ShadowAgrees t

/-- R223, R240: the device digits that are not configured, apart from the quirk address, are never written: a display operation, a
DISPTEST and a BEGIN (by the count it configures) with every byte acknowledged leave each of them what it was. For a BEGIN with
a pin that is no output this rests on log entry 8, by which nothing has then reached the device. -/
def Obligations.StaleDigitsAreNeverWritten : Prop :=
  ∀ (i : Instr) (s t : State) (e : Digit), Inv s → (s.ctl.init = true ∨ i.mnemonic = "BEGIN") → s.wire.bus = .closed →
    (keepsShadow i = true ∨ i.mnemonic = "DISPTEST" ∨ i.mnemonic = "BEGIN") → exec i s = .next t → t.eng.nak = false →
    t.ctl.nd.toNat ≤ e.val → t.ctl.qk = false →
    t.wire.settled.mem.read (phys s.cfg e).val = s.wire.settled.mem.read (phys s.cfg e).val

/-- An operation stopped after any number of its entries and then finished by the next step ends in the state in which it ends
when run at once. The entries, and a step that finishes what is in progress, are the model's (log entry 11); R35 and D2 allow
both ways of running. -/
def Obligations.StoppedOperationFinishesTheSame : Prop :=
  ∀ (i : Instr) (s t : State) (k : Nat), s.seq = .idle → isHostOp i = true → exec i s = .next t →
    k < (opList i s).length → step (ticks k (launch i s)) = .next t

/-- R35: while an operation is in progress, n is the number of events it has emitted. -/
def Obligations.SequencerCountsEmittedEvents : Prop :=
  ∀ (i j : Instr) (s : State) (k n : Nat) (rest : List Micro), s.seq = .idle →
    (ticks k (launch i s)).seq = .busy j n rest → j = i ∧ (ticks k (launch i s)).trace.length = s.trace.length + n

/-- R230: another agent's call on the pins makes the device unknown, and the block's registers and trace do not show it; a
transaction it interrupts, from the first event of its START on, leaves the device unknown also when the operation has been
finished. That the device is unknown outside an open transaction too is the model's (log entry 9), and so are the entries of an
operation (log entry 11). -/
def Obligations.AnotherPinUserLosesTheDevice : Prop :=
  ∀ (s : State) (p : Pin) (l : Level) (m : Dir) (e : Event), e ∈ [.dir p m, .wr p l, .rd p l] →
    (∀ (i j : Instr) (c : Byte) (k n : Nat) (rest : List Micro), i ∈ [.sendcmd c, .dispoff, .dispbright c] → s.seq = .idle →
      (ticks k (launch i s)).seq = .busy j n rest → 1 ≤ n →
      ∃ t, step ((ticks k (launch i s)).foreign e) = .next t ∧ t.wire.settled = ⟨none, none, [], none, none⟩) ∧
    (s.foreign e).wire.settled = ⟨none, none, [], none, none⟩ ∧ (s.foreign e).ctl = s.ctl ∧ (s.foreign e).eng = s.eng ∧
    (s.foreign e).trace = s.trace ∧ (s.foreign e).seq = s.seq
end

