-- ==== Sys2Proof/Laws/State.lean ====
section
/-! SUPPORT. One lemma per part of the state per update, each true by rfl, so that no proof unfolds a record update; then
the same for the pins and the digit registers. -/

namespace Sys2Proof.Machine

variable (s : State)

@[simp] theorem putCtl_cfg (x : Controller) : (s.putCtl x).cfg = s.cfg := rfl
@[simp] theorem putCtl_ctl (x : Controller) : (s.putCtl x).ctl = x := rfl
@[simp] theorem putCtl_eng (x : Controller) : (s.putCtl x).eng = s.eng := rfl
@[simp] theorem putCtl_pins (x : Controller) : (s.putCtl x).pins = s.pins := rfl
@[simp] theorem putCtl_seq (x : Controller) : (s.putCtl x).seq = s.seq := rfl
@[simp] theorem putCtl_trace (x : Controller) : (s.putCtl x).trace = s.trace := rfl
@[simp] theorem putCtl_port (x : Controller) : (s.putCtl x).port = s.port := rfl
@[simp] theorem putCtl_env (x : Controller) : (s.putCtl x).env = s.env := rfl
@[simp] theorem putCtl_wire (x : Controller) : (s.putCtl x).wire = s.wire := rfl

@[simp] theorem putEng_cfg (x : Engine) : (s.putEng x).cfg = s.cfg := rfl
@[simp] theorem putEng_ctl (x : Engine) : (s.putEng x).ctl = s.ctl := rfl
@[simp] theorem putEng_eng (x : Engine) : (s.putEng x).eng = x := rfl
@[simp] theorem putEng_pins (x : Engine) : (s.putEng x).pins = s.pins := rfl
@[simp] theorem putEng_seq (x : Engine) : (s.putEng x).seq = s.seq := rfl
@[simp] theorem putEng_trace (x : Engine) : (s.putEng x).trace = s.trace := rfl
@[simp] theorem putEng_port (x : Engine) : (s.putEng x).port = s.port := rfl
@[simp] theorem putEng_env (x : Engine) : (s.putEng x).env = s.env := rfl
@[simp] theorem putEng_wire (x : Engine) : (s.putEng x).wire = s.wire := rfl

@[simp] theorem putPins_cfg (x : Pins) : (s.putPins x).cfg = s.cfg := rfl
@[simp] theorem putPins_ctl (x : Pins) : (s.putPins x).ctl = s.ctl := rfl
@[simp] theorem putPins_eng (x : Pins) : (s.putPins x).eng = s.eng := rfl
@[simp] theorem putPins_pins (x : Pins) : (s.putPins x).pins = x := rfl
@[simp] theorem putPins_seq (x : Pins) : (s.putPins x).seq = s.seq := rfl
@[simp] theorem putPins_trace (x : Pins) : (s.putPins x).trace = s.trace := rfl
@[simp] theorem putPins_port (x : Pins) : (s.putPins x).port = s.port := rfl
@[simp] theorem putPins_env (x : Pins) : (s.putPins x).env = s.env := rfl
@[simp] theorem putPins_wire (x : Pins) : (s.putPins x).wire = s.wire := rfl

@[simp] theorem putSeq_cfg (x : Seq) : (s.putSeq x).cfg = s.cfg := rfl
@[simp] theorem putSeq_ctl (x : Seq) : (s.putSeq x).ctl = s.ctl := rfl
@[simp] theorem putSeq_eng (x : Seq) : (s.putSeq x).eng = s.eng := rfl
@[simp] theorem putSeq_pins (x : Seq) : (s.putSeq x).pins = s.pins := rfl
@[simp] theorem putSeq_seq (x : Seq) : (s.putSeq x).seq = x := rfl
@[simp] theorem putSeq_trace (x : Seq) : (s.putSeq x).trace = s.trace := rfl
@[simp] theorem putSeq_port (x : Seq) : (s.putSeq x).port = s.port := rfl
@[simp] theorem putSeq_env (x : Seq) : (s.putSeq x).env = s.env := rfl
@[simp] theorem putSeq_wire (x : Seq) : (s.putSeq x).wire = s.wire := rfl

@[simp] theorem putPort_cfg (x : Port) : (s.putPort x).cfg = s.cfg := rfl
@[simp] theorem putPort_ctl (x : Port) : (s.putPort x).ctl = s.ctl := rfl
@[simp] theorem putPort_eng (x : Port) : (s.putPort x).eng = s.eng := rfl
@[simp] theorem putPort_pins (x : Port) : (s.putPort x).pins = s.pins := rfl
@[simp] theorem putPort_seq (x : Port) : (s.putPort x).seq = s.seq := rfl
@[simp] theorem putPort_trace (x : Port) : (s.putPort x).trace = s.trace := rfl
@[simp] theorem putPort_port (x : Port) : (s.putPort x).port = x := rfl
@[simp] theorem putPort_env (x : Port) : (s.putPort x).env = s.env := rfl
@[simp] theorem putPort_wire (x : Port) : (s.putPort x).wire = s.wire := rfl

@[simp] theorem putEnv_cfg (x : Env) : (s.putEnv x).cfg = s.cfg := rfl
@[simp] theorem putEnv_ctl (x : Env) : (s.putEnv x).ctl = s.ctl := rfl
@[simp] theorem putEnv_eng (x : Env) : (s.putEnv x).eng = s.eng := rfl
@[simp] theorem putEnv_pins (x : Env) : (s.putEnv x).pins = s.pins := rfl
@[simp] theorem putEnv_seq (x : Env) : (s.putEnv x).seq = s.seq := rfl
@[simp] theorem putEnv_trace (x : Env) : (s.putEnv x).trace = s.trace := rfl
@[simp] theorem putEnv_port (x : Env) : (s.putEnv x).port = s.port := rfl
@[simp] theorem putEnv_env (x : Env) : (s.putEnv x).env = x := rfl
@[simp] theorem putEnv_wire (x : Env) : (s.putEnv x).wire = s.wire := rfl

@[simp] theorem putWire_cfg (x : Wire) : (s.putWire x).cfg = s.cfg := rfl
@[simp] theorem putWire_ctl (x : Wire) : (s.putWire x).ctl = s.ctl := rfl
@[simp] theorem putWire_eng (x : Wire) : (s.putWire x).eng = s.eng := rfl
@[simp] theorem putWire_pins (x : Wire) : (s.putWire x).pins = s.pins := rfl
@[simp] theorem putWire_seq (x : Wire) : (s.putWire x).seq = s.seq := rfl
@[simp] theorem putWire_trace (x : Wire) : (s.putWire x).trace = s.trace := rfl
@[simp] theorem putWire_port (x : Wire) : (s.putWire x).port = s.port := rfl
@[simp] theorem putWire_env (x : Wire) : (s.putWire x).env = s.env := rfl
@[simp] theorem putWire_wire (x : Wire) : (s.putWire x).wire = x := rfl

@[simp] theorem emit_cfg (e : Event) : (s.emit e).cfg = s.cfg := rfl
@[simp] theorem emit_ctl (e : Event) : (s.emit e).ctl = s.ctl := rfl
@[simp] theorem emit_eng (e : Event) : (s.emit e).eng = s.eng := rfl
@[simp] theorem emit_pins (e : Event) : (s.emit e).pins = s.pins := rfl
@[simp] theorem emit_seq (e : Event) : (s.emit e).seq = s.seq := rfl
@[simp] theorem emit_trace (e : Event) : (s.emit e).trace = s.trace ++ [e] := rfl
@[simp] theorem emit_port (e : Event) : (s.emit e).port = s.port := rfl
@[simp] theorem emit_env (e : Event) : (s.emit e).env = s.env := rfl
@[simp] theorem emit_wire (e : Event) : (s.emit e).wire = s.wire := rfl

/-- Two states are equal when their parts are. -/
theorem State.ext_parts {s t : State} (hcfg : s.cfg = t.cfg) (hctl : s.ctl = t.ctl) (heng : s.eng = t.eng)
    (hpins : s.pins = t.pins) (hseq : s.seq = t.seq) (htrace : s.trace = t.trace) (hport : s.port = t.port)
    (henv : s.env = t.env) (hwire : s.wire = t.wire) : s = t := by
  cases s; cases t; simp_all

@[simp] theorem Pair.set_clk_clk {α : Type} (x : Pair α) (v : α) : (x.set .clk v).clk = v := rfl
@[simp] theorem Pair.set_clk_dio {α : Type} (x : Pair α) (v : α) : (x.set .clk v).dio = x.dio := rfl
@[simp] theorem Pair.set_dio_dio {α : Type} (x : Pair α) (v : α) : (x.set .dio v).dio = v := rfl
@[simp] theorem Pair.set_dio_clk {α : Type} (x : Pair α) (v : α) : (x.set .dio v).clk = x.clk := rfl
@[simp] theorem Pair.get_clk {α : Type} (x : Pair α) : x.get .clk = x.clk := rfl
@[simp] theorem Pair.get_dio {α : Type} (x : Pair α) : x.get .dio = x.dio := rfl

/-- Reading a digit register after writing one. -/
@[simp] theorem Quad.get_set {α : Type} (q : Quad α) (i j : Digit) (v : α) :
    (q.set i v).get j = if j = i then v else q.get j := by
  fin_cases i <;> fin_cases j <;> rfl

/-- Writing a byte shows at its address and nowhere else. -/
@[simp] theorem Memory.read_write (m : Memory) (a b : Nat) (v : Byte) :
    (m.write a v).read b = if b = a then some v else m.read b := by
  induction m with
  | nil => simp [Memory.write, Memory.read]
  | cons c m ih =>
    obtain ⟨c, w⟩ := c
    simp only [Memory.write]
    split_ifs <;> simp_all [Memory.read]

theorem Memory.wfFrom_write (m : Memory) (lo a : Nat) (v : Byte) (hm : m.wfFrom lo = true) (hlo : lo ≤ a) (ha : a < 4) :
    (m.write a v).wfFrom lo = true := by
  induction m generalizing lo with
  | nil => simp [Memory.write, Memory.wfFrom, hlo, ha]
  | cons c m ih =>
    obtain ⟨c, w⟩ := c
    simp only [Memory.wfFrom, Bool.and_eq_true, decide_eq_true_eq] at hm
    obtain ⟨⟨h1, h2⟩, h3⟩ := hm
    simp only [Memory.write]
    split_ifs with h4 h5
    · have hc : a + 1 ≤ c := h4
      simp [Memory.wfFrom, *]
    · subst h5; simp [Memory.wfFrom, *]
    · have : c + 1 ≤ a := by omega
      simp [Memory.wfFrom, *]

/-- A write inside the DIG space keeps the canonical form. -/
theorem Memory.wf_write (m : Memory) (a : Nat) (v : Byte) (hm : m.wf = true) (ha : a < 4) : (m.write a v).wf = true :=
  Memory.wfFrom_write m 0 a v hm (Nat.zero_le a) ha

/-- Nothing known is in canonical form. -/
@[simp] theorem Memory.wf_nil : Memory.wf [] = true := rfl

end Sys2Proof.Machine
end

