-- ==== Sys2Proof/Laws/Run.lean ====
section
/-! SUPPORT. What running a list does: composition, and the whole effect of START, STOP and a byte said once. -/

namespace Sys2Proof.Machine

@[simp] theorem runAll_nil (s : State) : runAll [] s = s := rfl

@[simp] theorem runAll_cons (m : Micro) (ms : List Micro) (s : State) : runAll (m :: ms) s = runAll ms (m.run s) := rfl

theorem runAll_append (xs ys : List Micro) (s : State) : runAll (xs ++ ys) s = runAll ys (runAll xs s) := by
  induction xs generalizing s with
  | nil => rfl
  | cons x xs ih => exact ih _

/-- START in one piece (R111). -/
theorem runAll_startList (s : State) :
    runAll startList s =
      { s with
        pins := { s.pins with lat := ⟨.low, .low⟩ }
        trace := s.trace ++ startEvents
        wire := s.wire.start s.pins.driven } := by
  simp [startList, startEvents, Micro.run, State.gpioWr, State.putPins, State.emit, State.putWire, Pair.set, Pins.driven]

/-- STOP in one piece (R112). -/
theorem runAll_stopList (s : State) :
    runAll stopList s =
      { s with
        pins := { s.pins with lat := ⟨.high, .high⟩ }
        trace := s.trace ++ stopEvents
        wire := s.wire.stop s.pins.driven } := by
  simp [stopList, stopEvents, Micro.run, State.gpioWr, State.putPins, State.emit, State.putWire, Pair.set, Pins.driven]

@[simp] theorem runAll_startList_eng (s : State) : (runAll startList s).eng = s.eng := by rw [runAll_startList]

@[simp] theorem runAll_stopList_eng (s : State) : (runAll stopList s).eng = s.eng := by rw [runAll_stopList]

/-- Eight right shifts empty the shift register (R120). -/
theorem shift_out (v : Byte) : v >>> 8 = 0#8 := by
  ext i hi; simp

/-- A byte sent from pins that are not both outputs is lost, with the clock pin an output or not; from outputs it is a byte. -/
theorem glitch_byte (w : Wire) (p : Pins) (v : Byte) (a : Bool) :
    (w.glitch p.driven).byte (decide (p.dirr.clk = .out)) v a = w.byte p.driven v a := by
  unfold Wire.glitch
  cases hd : p.driven with
  | true => simp_all [Pins.driven]
  | false => cases decide (p.dirr.clk = .out) <;> rfl

/-- A byte in one piece (R113, R120). -/
theorem runAll_byteList (v : Byte) (s : State) :
    runAll (byteList v) s =
      { s with
        eng := { s.eng with sr := 0, bc := 8, ack := ackOf s.env.peek, nak := nakAfter s.eng.nak s.env.peek }
        pins :=
          { lat := ⟨.high, if ackOf s.env.peek then .low else Level.ofBit (v.getLsbD 7)⟩
            dirr := { s.pins.dirr with dio := .out } }
        trace := s.trace ++ byteEvents s.cfg.tBit v s.env.peek
        env := s.env.advance
        wire := s.wire.byte s.pins.driven v (ackOf s.env.peek) } := by
  rw [← glitch_byte]
  cases h : s.env.peek <;>
  simp [byteList, bitList, ackList, byteEvents, bitEvents, ackEvents, Micro.run, State.gpioWr, State.gpioDir, State.gpioDly,
    State.gpioRd, State.sample, State.readLevel, State.putPins, State.putEng, State.putEnv, State.emit, State.putWire, Pair.set,
    Pair.get, Pins.driven, Engine.bitLevel, shift_out, ackOf, nakAfter, h, List.range_succ]

@[simp] theorem runAll_byteList_daddr (v : Byte) (s : State) : (runAll (byteList v) s).eng.daddr = s.eng.daddr := by
  rw [runAll_byteList]

end Sys2Proof.Machine
end

