-- ==== Sys2Proof/Laws/Transmit.lean ====
section
/-! SUPPORT. What SENDCMD, WRDIGIT, WRRUN and XFER send, each said once. -/

namespace Sys2Proof.Machine

theorem answersFor_add (e : Env) (j k : Nat) : e.answersFor (j + k) = e.answersFor j ++ (e.after j).answersFor k := by
  induction j generalizing e with
  | zero => simp [Env.answersFor, Env.after]
  | succ j ih => rw [Nat.succ_add]; simp [Env.answersFor, Env.after, ih]

@[simp] theorem answersFor_length (e : Env) (k : Nat) : (e.answersFor k).length = k := by
  induction k generalizing e with
  | zero => rfl
  | succ k ih => simp [Env.answersFor, ih]

theorem after_add (e : Env) (j k : Nat) : e.after (j + k) = (e.after j).after k := by
  induction j generalizing e with
  | zero => simp [Env.after]
  | succ j ih => rw [Nat.succ_add]; simp [Env.after, ih]

theorem sentEvents_append (T : Nat) (e : Env) (xs ys : List (List Byte)) :
    sentEvents T e (xs ++ ys) = sentEvents T e xs ++ sentEvents T (e.after xs.flatten.length) ys := by
  induction xs generalizing e with
  | nil => simp [sentEvents, Env.after]
  | cons x xs ih => simp [sentEvents, ih, after_add]

theorem sentWire_append (w : Wire) (e : Env) (xs ys : List (List Byte)) :
    sentWire w e (xs ++ ys) = sentWire (sentWire w e xs) (e.after xs.flatten.length) ys := by
  induction xs generalizing e w with
  | nil => simp [sentWire, Env.after]
  | cons x xs ih => simp [sentWire, ih, after_add]

theorem stop_closed (w : Wire) (b : Bool) : (w.stop b).bus = .closed := by
  unfold Wire.stop
  split
  · split_ifs <;> rfl
  · rfl
  · rfl
  · rfl

/-- After transactions the bus is closed, whatever the answers. -/
theorem sentWire_closed (txs : List (List Byte)) (w : Wire) (e : Env) (h : w.bus = .closed) :
    (sentWire w e txs).bus = .closed := by
  induction txs generalizing w e with
  | nil => exact h
  | cons tx txs ih => exact ih _ _ (stop_closed _ _)

/-- Outputs stay outputs when the data pin is restored (R119). -/
theorem driven_dio {p q : Pins} (h : q.dirr = { p.dirr with dio := .out }) (hd : p.driven = true) : q.driven = true := by
  simp only [Pins.driven, Bool.and_eq_true, decide_eq_true_eq] at hd ⊢
  rw [h]
  exact ⟨hd.1, rfl⟩

/-- Sending leaves both pins outputs if they were. -/
theorem Sends.driven {s t : State} {txs : List (List Byte)} (h : Sends s t txs) (hd : s.pins.driven = true) :
    t.pins.driven = true := driven_dio h.dirr hd

/-- Sending from an idle bus ends with an idle bus, whatever the answers. -/
theorem Sends.busIdle {s t : State} {txs : List (List Byte)} (h : Sends s t txs) (hb : BusIdle s) : BusIdle t :=
  ⟨by rw [h.wire hb]; exact sentWire_closed _ _ _ hb.1, h.driven hb.2⟩

/-- Sending one run of transactions and then another. -/
theorem Sends.append {s t u : State} {xs ys : List (List Byte)} (h1 : Sends s t xs) (h2 : Sends t u ys)
    (hy : ys.flatten ≠ []) : Sends s u (xs ++ ys) where
  cfg := h2.cfg.trans h1.cfg
  ctl := h2.ctl.trans h1.ctl
  seq := h2.seq.trans h1.seq
  ops := h2.ops.trans h1.ops
  trace := by rw [h2.trace, h1.trace, h1.cfg, h1.env, sentEvents_append, List.append_assoc]
  env := by rw [h2.env, h1.env, ← after_add]; simp
  lat := h2.lat
  dirr := by rw [h2.dirr, h1.dirr]
  sr := h2.sr
  bc := h2.bc
  ack := by
    rw [h2.ack, h1.env, List.flatten_append, List.length_append, answersFor_add, List.getLast?_append]
    cases hn : ys.flatten with
    | nil => exact absurd hn hy
    | cons b bs =>
      cases h : ((s.env.after xs.flatten.length).answersFor (b :: bs).length).getLast? with
      | none => simp [Env.answersFor] at h
      | some a => simp
  nak := by rw [h2.nak, h1.nak, h1.env, List.flatten_append, List.length_append, answersFor_add, List.foldl_append]
  wire := by
    intro hb
    rw [h2.wire (h1.busIdle hb), h1.wire hb, h1.env, sentWire_append]

/-- Bytes sent inside one transaction; only `DADDR` is left open. -/
structure Bytes (s t : State) (bs : List Byte) : Prop where
  cfg : t.cfg = s.cfg
  ctl : t.ctl = s.ctl
  seq : t.seq = s.seq
  port : t.port = s.port
  trace : t.trace = s.trace ++ (answered s.env bs).flatMap (fun x => byteEvents s.cfg.tBit x.1 x.2)
  env : t.env = s.env.after bs.length
  dirr : t.pins.dirr = { s.pins.dirr with dio := .out }
  sr : t.eng.sr = 0
  bc : t.eng.bc = 8
  ack : some t.eng.ack = (s.env.answersFor bs.length).getLast?.map ackOf
  nak : t.eng.nak = (s.env.answersFor bs.length).foldl nakAfter s.eng.nak
  wire : s.pins.driven = true →
    t.wire = (answered s.env bs).foldl (fun w x => w.byte true x.1 (ackOf x.2)) s.wire

theorem bytes_one (s : State) (v : Byte) : Bytes s (runAll (byteList v) s) [v] := by
  rw [runAll_byteList]
  constructor <;> simp [answered, Env.answersFor, Env.after, nakAfter]
  intro h; simp [h]

theorem answered_append (e : Env) (xs ys : List Byte) :
    answered e (xs ++ ys) = answered e xs ++ answered (e.after xs.length) ys := by
  simp only [answered, List.length_append, answersFor_add]
  rw [List.zip_append (by simp)]

theorem Bytes.append {s t u : State} {xs ys : List Byte} (h1 : Bytes s t xs) (h2 : Bytes t u ys) (hy : ys ≠ []) :
    Bytes s u (xs ++ ys) where
  cfg := h2.cfg.trans h1.cfg
  ctl := h2.ctl.trans h1.ctl
  seq := h2.seq.trans h1.seq
  port := h2.port.trans h1.port
  trace := by rw [h2.trace, h1.trace, h1.cfg, h1.env, answered_append, List.flatMap_append, List.append_assoc]
  env := by rw [h2.env, h1.env, ← after_add]; simp
  dirr := by rw [h2.dirr, h1.dirr]
  sr := h2.sr
  bc := h2.bc
  ack := by
    rw [h2.ack, h1.env, List.length_append, answersFor_add, List.getLast?_append]
    cases ys with
    | nil => exact absurd rfl hy
    | cons b bs =>
      cases h : ((s.env.after xs.length).answersFor (b :: bs).length).getLast? with
      | none => simp [Env.answersFor] at h
      | some a => simp
  nak := by rw [h2.nak, h1.nak, h1.env, List.length_append, answersFor_add, List.foldl_append]
  wire := by
    intro hd
    rw [h2.wire (driven_dio h1.dirr hd), h1.wire hd, h1.env, answered_append, List.foldl_append]

/-- `DADDR` is not looked at, before or after. -/
theorem Bytes.setDaddr_after {s t : State} {bs : List Byte} (h : Bytes s t bs) (p : Digit) :
    Bytes s (t.putEng { t.eng with daddr := p }) bs :=
  ⟨h.cfg, h.ctl, h.seq, h.port, h.trace, h.env, h.dirr, h.sr, h.bc, h.ack, h.nak, h.wire⟩

theorem Bytes.setDaddr_before {s t : State} {bs : List Byte} {p : Digit} (h : Bytes (s.putEng { s.eng with daddr := p }) t bs) :
    Bytes s t bs :=
  ⟨h.cfg, h.ctl, h.seq, h.port, h.trace, h.env, h.dirr, h.sr, h.bc, h.ack, h.nak, h.wire⟩

/-- Framing bytes makes them a transaction (R122). -/
theorem Bytes.framed {s t : State} {bs : List Byte} (h : Bytes (runAll startList s) t bs) :
    Sends s (runAll stopList t) [bs] := by
  rw [runAll_startList] at h
  obtain ⟨h1, h2, h3, h4, h5, h6, h7, h8, h9, h10, h11, h12⟩ := h
  rw [runAll_stopList]
  constructor <;> simp_all [sentEvents, transactionEvents]
  intro hb
  have hd := hb.2
  have hc : s.pins.dirr.clk = .out := by simp_all [Pins.driven]
  simp only [h12 hd, hd, sentWire, Wire.transaction]
  simp [Pins.driven, h7, hc]

/-- SENDADDR sends the address byte and loads `DADDR` (R153). -/
theorem sends_sendaddr (s : State) (cfg : Config) (d : Digit) :
    Bytes s (runAll (sendaddrList cfg d) s) [addrByte cfg d] ∧
      (runAll (sendaddrList cfg d) s).eng.daddr = phys cfg d := by
  constructor
  · exact Bytes.setDaddr_before (p := phys cfg d) (bytes_one _ _)
  · simp [sendaddrList, runAll_byteList, Micro.run]

/-- SENDCMD is the transaction [c] (R154). -/
theorem sends_sendcmd (s : State) (c : Byte) :
    Sends s (runAll (sendcmdList c) s) [[c]] ∧ (runAll (sendcmdList c) s).eng.daddr = s.eng.daddr := by
  constructor
  · rw [sendcmdList, runAll_append, runAll_append]
    exact Bytes.framed (bytes_one _ _)
  · simp [sendcmdList, runAll_append, runAll_startList, runAll_stopList, runAll_byteList]

/-- WRDIGIT is [0x44] and [0xC0 + phys(d), v] (R155, R157). -/
theorem sends_wrdigit (s : State) (cfg : Config) (d : Digit) (v : Byte) :
    Sends s (runAll (wrdigitList cfg d v) s) [[setFixed], [addrByte cfg d, v]] ∧
      (runAll (wrdigitList cfg d v) s).eng.daddr = phys cfg d := by
  simp only [wrdigitList, runAll_append]
  constructor
  · refine (sends_sendcmd s setFixed).1.append (Bytes.framed ?_) (by simp)
    exact (sends_sendaddr _ cfg d).1.append (bytes_one _ v) (by simp)
  · rw [runAll_stopList_eng, runAll_byteList_daddr, (sends_sendaddr _ cfg d).2]

/-- The burst sends its codes and steps `DADDR` once for each (R156). -/
theorem sends_burst (s : State) (v : Byte) (vs : List Byte) :
    Bytes s (runAll (burstList (v :: vs)) s) (v :: vs) ∧
      (runAll (burstList (v :: vs)) s).eng.daddr = s.eng.daddr + Fin.ofNat 4 (v :: vs).length := by
  induction vs generalizing s v with
  | nil =>
    simp only [burstList, runAll_append]
    refine ⟨Bytes.setDaddr_after (bytes_one s v) _, ?_⟩
    simp only [runAll_cons, runAll_nil, Micro.run, putEng_eng, runAll_byteList_daddr]; rfl
  | cons w vs ih =>
    have hstep : runAll (burstList (v :: w :: vs)) s =
        runAll (burstList (w :: vs)) ((Micro.incDaddr).run (runAll (byteList v) s)) := by
      rw [show burstList (v :: w :: vs) = byteList v ++ .incDaddr :: burstList (w :: vs) from rfl, runAll_append]; rfl
    obtain ⟨h1, h2⟩ := ih ((Micro.incDaddr).run (runAll (byteList v) s)) w
    rw [hstep]
    refine ⟨(Bytes.setDaddr_after (bytes_one s v) _).append h1 (by simp), ?_⟩
    rw [h2]
    simp only [Micro.run, runAll_byteList_daddr, putEng_eng, List.length_cons, add_assoc]
    congr 1
    apply Fin.ext
    simp [Fin.ofNat, Fin.add_def]
    omega

/-- WRRUN is [0x40] and [0xC0 + phys(d), v0, …] (R156, R157). -/
theorem sends_wrrun (s : State) (cfg : Config) (d : Digit) (vs : List Byte) (hv : vs ≠ []) :
    Sends s (runAll (wrrunList cfg d vs) s) [[setAuto], addrByte cfg d :: vs] ∧
      (runAll (wrrunList cfg d vs) s).eng.daddr = phys cfg d + Fin.ofNat 4 vs.length := by
  obtain ⟨v, vs, rfl⟩ := List.exists_cons_of_ne_nil hv
  simp only [wrrunList, runAll_append]
  constructor
  · refine (sends_sendcmd s setAuto).1.append (Bytes.framed ?_) (by simp)
    exact (sends_sendaddr _ cfg d).1.append (sends_burst _ v vs).1 (by simp)
  · rw [runAll_stopList_eng, (sends_burst _ v vs).2, (sends_sendaddr _ cfg d).2]

theorem fixedTransactions_ne_nil (cfg : Config) (d : Digit) (v : Byte) (vs : List Byte) :
    (digitTransactions cfg d (v :: vs)).flatten ≠ [] := by simp [digitTransactions]

theorem xferTransactions_ne_nil (cfg : Config) (d : Digit) (vs : List Byte) (hv : vs ≠ []) :
    (xferTransactions cfg d vs).flatten ≠ [] := by
  obtain ⟨v, vs, rfl⟩ := List.exists_cons_of_ne_nil hv
  unfold xferTransactions
  split
  · simp
  · exact fixedTransactions_ne_nil cfg d v vs

/-- XFER under Fixed (R94). -/
theorem sends_xferFixed (s : State) (cfg : Config) (d : Digit) (v : Byte) (vs : List Byte) :
    Sends s (runAll (xferFixedList cfg d (v :: vs)) s) (digitTransactions cfg d (v :: vs)) ∧
      (runAll (xferFixedList cfg d (v :: vs)) s).eng.daddr = phys cfg (d + Fin.ofNat 4 vs.length) := by
  induction vs generalizing s d v with
  | nil =>
    obtain ⟨h1, h2⟩ := sends_wrdigit s cfg d v
    simp only [xferFixedList, List.append_nil]
    exact ⟨h1, by rw [h2]; congr 1; exact (add_zero d).symm⟩
  | cons w vs ih =>
    have hrun : runAll (xferFixedList cfg d (v :: w :: vs)) s =
        runAll (xferFixedList cfg (d + 1) (w :: vs)) (runAll (wrdigitList cfg d v) s) := by
      rw [show xferFixedList cfg d (v :: w :: vs) = wrdigitList cfg d v ++ xferFixedList cfg (d + 1) (w :: vs) from rfl,
        runAll_append]
    rw [hrun]
    obtain ⟨h1, h2⟩ := ih (runAll (wrdigitList cfg d v) s) (d + 1) w
    refine ⟨(sends_wrdigit s cfg d v).1.append h1 (fixedTransactions_ne_nil _ _ _ _), ?_⟩
    rw [h2]
    congr 1
    apply Fin.ext
    simp [Fin.ofNat, Fin.add_def]
    omega

/-- XFER (R94, R157). -/
theorem sends_xfer (s : State) (cfg : Config) (d : Digit) (vs : List Byte) (hv : vs ≠ []) :
    Sends s (runAll (xferList cfg d vs) s) (xferTransactions cfg d vs) ∧
      (runAll (xferList cfg d vs) s).eng.daddr = xferDaddr cfg d vs := by
  obtain ⟨v, vs, rfl⟩ := List.exists_cons_of_ne_nil hv
  cases hm : cfg.mode with
  | autoIncrement =>
    have hp : ∀ e, phys cfg e = e := by intro e; simp [phys, hm]
    obtain ⟨h1, h2⟩ := sends_wrrun s cfg d (v :: vs) (by simp)
    simp only [xferList, xferTransactions, xferDaddr, hm]
    simp only [addrByte, hp] at h1 h2
    refine ⟨h1, ?_⟩
    rw [h2]
    apply Fin.ext
    simp [Fin.ofNat, Fin.add_def]
  | fixed =>
    obtain ⟨h1, h2⟩ := sends_xferFixed s cfg d v vs
    simp only [xferList, xferTransactions, xferDaddr, hm]
    refine ⟨h1, ?_⟩
    rw [h2]
    congr 1
    apply Fin.ext
    simp [Fin.ofNat, Fin.add_def]

theorem runAll_setRunList (s : State) (d : Digit) (vs : List Byte) :
    runAll (setRunList d vs) s = s.putCtl { s.ctl with dr := Quad.setRun s.ctl.dr d vs } := by
  induction vs generalizing s d with
  | nil => rfl
  | cons v vs ih => simp only [setRunList, runAll_cons, ih]; rfl

/-- Writing a run of codes to `DR` and transmitting it (R182). -/
theorem shows_showList (s : State) (d : Digit) (vs : List Byte) (hv : vs ≠ []) :
    Shows s (runAll (showList s.cfg d vs) s) d vs := by
  rw [showList, runAll_append, runAll_setRunList]
  obtain ⟨h1, h2⟩ := sends_xfer (s.putCtl { s.ctl with dr := Quad.setRun s.ctl.dr d vs }) s.cfg d vs hv
  exact ⟨h1, h2⟩

end Sys2Proof.Machine
end

