-- ==== Sys2Proof/Laws/Meanings.lean ====
section
/-! SUPPORT. When each host operation completes, and the list it then runs; when it is refused. -/

namespace Sys2Proof.Machine

variable {s : State}

theorem whenReady_ready (h : s.ctl.init = true) (r : Result) : whenReady s r = r := by simp [whenReady, h]

theorem whenReady_notReady (h : s.ctl.init = false) (r : Result) : whenReady s r = .refused .notReady := by
  simp [whenReady, h]

theorem exec_sendcmd_ready (h : s.ctl.init = true) (c : Byte) : exec (.sendcmd c) s = .next (runAll (sendcmdList c) s) :=
  whenReady_ready h _

theorem exec_wrdigit_ready (h : s.ctl.init = true) (hm : s.cfg.mode = .fixed) (d : Digit) (v : Byte) :
    exec (.wrdigit d v) s = .next (runAll (wrdigitList s.cfg d v) s) :=
  (whenReady_ready h _).trans (if_pos hm)

theorem exec_wrrun_ready (h : s.ctl.init = true) (hm : s.cfg.mode = .autoIncrement) (d : Digit) (vs : List Byte)
    (hf : runFits d vs = true) : exec (.wrrun d vs) s = .next (runAll (wrrunList s.cfg d vs) s) :=
  (whenReady_ready h _).trans ((if_pos hm).trans (if_pos hf))

theorem exec_begin (n b : Byte) : exec (.beginDisp n b) s = .next (runAll (beginList s.cfg n b) s) := rfl

theorem exec_dispoff_ready (h : s.ctl.init = true) : exec .dispoff s = .next (runAll dispoffList s) :=
  whenReady_ready h _

theorem exec_dispclear_ready (h : s.ctl.init = true) :
    exec .dispclear s = .next (runAll (dispclearList s.cfg s.ctl.nd s.ctl.qk) s) :=
  whenReady_ready h _

theorem exec_dispbright_ready (h : s.ctl.init = true) (l : Byte) :
    exec (.dispbright l) s = .next (runAll (dispbrightList l) s) :=
  whenReady_ready h _

theorem exec_dispchar_ready (h : s.ctl.init = true) (d v : Byte) (raw : Bool) :
    exec (.dispchar d v raw) s = .next (runAll (dispcharList s.cfg s.ctl.nd d v raw) s) :=
  whenReady_ready h _

theorem exec_dispint8_ready (h : s.ctl.init = true) (st v : Byte) (dec : Bool) :
    exec (.dispint8 st v dec) s = .next (runAll (fieldList s.cfg s.ctl.nd 2 st dec (value8 dec v)) s) :=
  whenReady_ready h _

theorem exec_dispint12_ready (h : s.ctl.init = true) (st : Byte) (v : BitVec 16) (dec : Bool) :
    exec (.dispint12 st v dec) s = .next (runAll (fieldList s.cfg s.ctl.nd 3 st dec (value12 dec v)) s) :=
  whenReady_ready h _

theorem exec_dispint16_ready (h : s.ctl.init = true) (st : Byte) (v : BitVec 16) (dec : Bool) :
    exec (.dispint16 st v dec) s = .next (runAll (fieldList s.cfg s.ctl.nd 4 st dec (value16 dec v)) s) :=
  whenReady_ready h _

theorem exec_dispdp_ready (h : s.ctl.init = true) (on : Bool) :
    exec (.dispdp on) s = .next (runAll (dispdpList s.cfg s.ctl.qk on) s) :=
  whenReady_ready h _

theorem exec_disptest_ready (h : s.ctl.init = true) (ht : s.cfg.hasTest = true) (on : Bool) :
    exec (.disptest on) s = .next (runAll (disptestList s.cfg s.ctl on) s) :=
  (whenReady_ready h _).trans (if_pos ht)

/-- A host operation that completes has run its list (R64, R110). -/
theorem exec_eq_runAll_opList {i : Instr} {t : State} (hi : isHostOp i = true) (h : exec i s = .next t) :
    t = runAll (opList i s) s := by
  have ready : ∀ {r : Result}, whenReady s r = .next t → r = .next t := by
    intro r hr
    cases hin : s.ctl.init with
    | true => rwa [whenReady_ready hin] at hr
    | false => rw [whenReady_notReady hin] at hr; cases hr
  cases i with
  | wAuto => cases hi
  | wFixed => cases hi
  | wOff => cases hi
  | wOn _ => cases hi
  | wAddr _ => cases hi
  | wData _ => cases hi
  | start => injection h with h; exact h.symm
  | stop => injection h with h; exact h.symm
  | wrbyte _ => injection h with h; exact h.symm
  | bitdelay => injection h with h; exact h.symm
  | lookup _ => injection h with h; exact h.symm
  | sendcmd _ => injection ready h with h; exact h.symm
  | wrdigit _ _ =>
    have h := ready h
    unfold whenMode at h
    split at h
    · injection h with h; exact h.symm
    · cases h
  | wrrun _ _ =>
    have h := ready h
    unfold whenMode at h
    split at h
    · split at h
      · injection h with h; exact h.symm
      · cases h
    · cases h
  | beginDisp _ _ => injection h with h; exact h.symm
  | dispoff => injection ready h with h; exact h.symm
  | dispclear => injection ready h with h; exact h.symm
  | dispbright _ => injection ready h with h; exact h.symm
  | dispchar _ _ _ => injection ready h with h; exact h.symm
  | dispint8 _ _ _ => injection ready h with h; exact h.symm
  | dispint12 _ _ _ => injection ready h with h; exact h.symm
  | dispint16 _ _ _ => injection ready h with h; exact h.symm
  | dispdp _ => injection ready h with h; exact h.symm
  | disptest _ =>
    have h := ready h
    split at h
    · injection h with h; exact h.symm
    · cases h

end Sys2Proof.Machine
end

