-- ==== Sys2Proof/Laws/Frame.lean ====
section
/-! SUPPORT. What no list changes, what a list without certain entries does not change, and which entries an operation's list
can hold. -/

namespace Sys2Proof.Machine

/-! ## What no entry changes -/

theorem run_cfg (m : Micro) (s : State) : (m.run s).cfg = s.cfg := by
  cases m <;> first | rfl | (simp only [Micro.run]; split <;> rfl)

theorem runAll_cfg (ms : List Micro) (s : State) : (runAll ms s).cfg = s.cfg := by
  induction ms generalizing s with
  | nil => rfl
  | cons m ms ih => rw [runAll_cons, ih, run_cfg]

theorem run_seq (m : Micro) (s : State) : (m.run s).seq = s.seq := by
  cases m <;> first | rfl | (simp only [Micro.run]; split <;> rfl)

theorem runAll_seq (ms : List Micro) (s : State) : (runAll ms s).seq = s.seq := by
  induction ms generalizing s with
  | nil => rfl
  | cons m ms ih => rw [runAll_cons, ih, run_seq]

/-- No entry reads `SEQ`. -/
theorem run_putSeq (m : Micro) (s : State) (q : Seq) : m.run (s.putSeq q) = (m.run s).putSeq q := by
  cases m <;> simp only [Micro.run] <;> first | rfl | (rw [putSeq_eng]; split <;> rfl)

theorem runAll_putSeq (ms : List Micro) (s : State) (q : Seq) : runAll ms (s.putSeq q) = (runAll ms s).putSeq q := by
  induction ms generalizing s with
  | nil => rfl
  | cons m ms ih => rw [runAll_cons, run_putSeq, ih]; rfl

/-- An entry only adds to the trace (R64). -/
theorem run_trace (m : Micro) (s : State) : ∃ es, (m.run s).trace = s.trace ++ es := by
  cases m <;> simp only [Micro.run] <;>
    first
      | exact ⟨_, rfl⟩
      | exact ⟨[], (List.append_nil _).symm⟩
      | (split <;> first | exact ⟨_, rfl⟩ | exact ⟨[], (List.append_nil _).symm⟩)

theorem runAll_trace (ms : List Micro) (s : State) : ∃ es, (runAll ms s).trace = s.trace ++ es := by
  induction ms generalizing s with
  | nil => exact ⟨[], (List.append_nil _).symm⟩
  | cons m ms ih =>
    obtain ⟨a, ha⟩ := run_trace m s
    obtain ⟨b, hb⟩ := ih (m.run s)
    exact ⟨a ++ b, by rw [runAll_cons, hb, ha, List.append_assoc]⟩

/-- `INIT` is never cleared (R21). -/
theorem runAll_init (ms : List Micro) (s : State) (h : s.ctl.init = true) : (runAll ms s).ctl.init = true := by
  induction ms generalizing s with
  | nil => exact h
  | cons m ms ih =>
    refine ih _ ?_
    cases m <;> simp only [Micro.run] <;> first | exact h | rfl | (split <;> exact h)

/-! ## What a list without certain entries does not change -/

/-- What none of the allowed entries changes, a list of allowed entries does not change. -/
theorem runAll_frame {α : Type} (f : State → α) (p : Micro → Bool) (hp : ∀ m s, p m = true → f (m.run s) = f s)
    (ms : List Micro) (s : State) (h : ms.all p = true) : f (runAll ms s) = f s := by
  induction ms generalizing s with
  | nil => rfl
  | cons m ms ih =>
    rw [List.all_cons, Bool.and_eq_true] at h
    rw [runAll_cons, ih _ h.2, hp _ _ h.1]

/-- A property of entries that every entry of the engine and of digit addressing has. -/
structure Covers (p : Micro → Bool) : Prop where
  byte : ∀ v, (byteList v).all p = true
  start : startList.all p = true
  stop : stopList.all p = true
  setDaddr : ∀ x, p (.setDaddr x) = true
  incDaddr : p .incDaddr = true

variable {p : Micro → Bool}

theorem Covers.sendcmd (h : Covers p) (c : Byte) : (sendcmdList c).all p = true := by
  simp [sendcmdList, List.all_append, h.byte, h.start, h.stop, -List.all_eq_true]

theorem Covers.wrdigit (h : Covers p) (cfg : Config) (d : Digit) (v : Byte) : (wrdigitList cfg d v).all p = true := by
  simp [wrdigitList, sendaddrList, List.all_append, List.all_cons, h.sendcmd, h.byte, h.start, h.stop, h.setDaddr,
    -List.all_eq_true]

theorem Covers.burst (h : Covers p) (vs : List Byte) : (burstList vs).all p = true := by
  induction vs with
  | nil => rfl
  | cons v vs ih => simp [burstList, List.all_append, List.all_cons, h.byte, h.incDaddr, ih, -List.all_eq_true]

theorem Covers.wrrun (h : Covers p) (cfg : Config) (d : Digit) (vs : List Byte) : (wrrunList cfg d vs).all p = true := by
  simp [wrrunList, sendaddrList, List.all_append, List.all_cons, h.sendcmd, h.burst, h.byte, h.start, h.stop, h.setDaddr,
    -List.all_eq_true]

theorem Covers.xfer (h : Covers p) (cfg : Config) (d : Digit) (vs : List Byte) : (xferList cfg d vs).all p = true := by
  unfold xferList
  split
  · exact h.wrrun _ _ _
  · induction vs generalizing d with
    | nil => rfl
    | cons v vs ih => simp [xferFixedList, List.all_append, h.wrdigit, ih, -List.all_eq_true]

theorem Covers.show (h : Covers p) (hd : ∀ i v, p (.setDr i v) = true) (cfg : Config) (d : Digit) (vs : List Byte) :
    (showList cfg d vs).all p = true := by
  have hset : (setRunList d vs).all p = true := by
    induction vs generalizing d with
    | nil => rfl
    | cons v vs ih => simp [setRunList, List.all_cons, hd, ih, -List.all_eq_true]
  simp [showList, List.all_append, hset, h.xfer, -List.all_eq_true]

/-- Which entries the list of an operation other than BEGIN can hold. -/
theorem Covers.op (h : Covers p) (i : Instr) (s : State) (hd : ∀ i v, p (.setDr i v) = true)
    (hret : i.mnemonic ≠ "LOOKUP" ∨ ∀ v, p (.ret v) = true)
    (hack : i.mnemonic ≠ "WRBYTE" ∨ p .retAck = true) (hdly : p .dly = true) (hb : i.mnemonic ≠ "BEGIN")
    (hbr : i.mnemonic ≠ "DISPBRIGHT" ∨ ∀ l, p (.setBr l) = true) : (opList i s).all p = true := by
  have dp : ∀ on, (dispdpList s.cfg s.ctl.qk on).all p = true := by
    intro on
    unfold dispdpList
    split
    · exact h.show hd _ _ _
    · rfl
  have field : ∀ m st dec w, (fieldList s.cfg s.ctl.nd m st dec w).all p = true := by
    intro m st dec w
    unfold fieldList
    split
    · rfl
    · exact h.show hd _ _ _
  cases i with
  | wAuto => rfl
  | wFixed => rfl
  | wOff => rfl
  | wOn _ => rfl
  | wAddr _ => rfl
  | wData _ => rfl
  | start => exact h.start
  | stop => exact h.stop
  | wrbyte v =>
    rcases hack with h' | h'
    · exact absurd rfl h'
    · simp [opList, wrbyteList, List.all_append, h.byte, h', -List.all_eq_true]
  | bitdelay => simp [opList, bitdelayList, hdly]
  | lookup idx =>
    rcases hret with h' | h'
    · exact absurd rfl h'
    · simp [opList, lookupList, h']
  | sendcmd c => exact h.sendcmd _
  | wrdigit d v => exact h.wrdigit _ _ _
  | wrrun d vs => exact h.wrrun _ _ _
  | beginDisp n b => exact absurd rfl hb
  | dispoff => exact h.sendcmd _
  | dispclear => simp [opList, dispclearList, List.all_append, h.show hd, dp, -List.all_eq_true]
  | dispbright l =>
    rcases hbr with h' | h'
    · exact absurd rfl h'
    · simp [opList, dispbrightList, List.all_cons, h', h.sendcmd, -List.all_eq_true]
  | dispchar d v raw => exact h.show hd _ _ _
  | dispint8 st v dec => exact field _ _ _ _
  | dispint12 st v dec => exact field _ _ _ _
  | dispint16 st v dec => exact field _ _ _ _
  | dispdp on => exact dp _
  | disptest on =>
    simp only [opList, disptestList]
    split <;> rw [List.all_append, h.xfer] <;> split <;> first | rfl | exact h.xfer _ _ _

/-! ## The result port -/

/-- Every entry but the two that give a result. -/
def keepsPort : Micro → Bool
  | .ret _ => false
  | .retAck => false
  | _ => true

theorem covers_keepsPort : Covers keepsPort := ⟨fun _ => rfl, rfl, rfl, fun _ => rfl, rfl⟩

/-- A list without results leaves the ports alone. -/
theorem runAll_port (ms : List Micro) (s : State) (h : ms.all keepsPort = true) : (runAll ms s).port = s.port :=
  runAll_frame (fun s => s.port) keepsPort
    (by intro m s h; cases m <;> first | (cases h; done) | rfl | (simp only [Micro.run]; split <;> rfl)) ms s h

/-- Only LOOKUP and WRBYTE give a result (R90). -/
theorem opList_keepsPort (i : Instr) (s : State) (hl : i.mnemonic ≠ "LOOKUP") (hw : i.mnemonic ≠ "WRBYTE") :
    (opList i s).all keepsPort = true := by
  have other := covers_keepsPort.op i s (fun _ _ => rfl) (.inl hl) (.inl hw) rfl (hbr := .inr fun _ => rfl)
  cases i with
  | beginDisp n b =>
    simp only [opList, beginList, dispclearList, dispbrightList, List.all_append, List.all_cons, List.all_nil,
      covers_keepsPort.show (fun _ _ => rfl), covers_keepsPort.sendcmd]
    unfold dispdpList
    split <;> simp [covers_keepsPort.show (fun _ _ => rfl), keepsPort, -List.all_eq_true]
  | _ => exact other (by simp [Instr.mnemonic])

/-! ## After another agent's call (R230) -/

/-- Every entry but the beginning of a transaction. -/
def opensNothing : Micro → Bool
  | .busStart => false
  | _ => true

/-- Nothing of an interrupted transaction reaches the device: until the next START all stays unknown. -/
theorem runAll_lost (ms : List Micro) (s : State) (h : ms.all opensNothing = true) (hl : s.wire = Wire.lost) :
    (runAll ms s).wire = Wire.lost := by
  induction ms generalizing s with
  | nil => exact hl
  | cons m ms ih =>
    rw [List.all_cons, Bool.and_eq_true] at h
    refine ih _ h.2 ?_
    cases m <;>
      first
        | (cases h.1; done)
        | exact hl
        | (simp only [Micro.run]; split <;> exact hl)
        | (simp only [Micro.run, putWire_wire, hl]; cases s.pins.driven <;> rfl)

/-! ## The answer flags -/

/-- Every entry but `NAK <- 0`. -/
def keepsNak : Micro → Bool
  | .clrNak => false
  | _ => true

/-- `NAK` after an entry: set by a sample that read H, else as before (R32). -/
theorem run_nak (m : Micro) (s : State) (h : keepsNak m = true) :
    ∃ es, (m.run s).trace = s.trace ++ es ∧ (m.run s).eng.nak = (s.eng.nak || decide (Event.rd .dio .high ∈ es)) := by
  cases m <;>
    first
      | (cases h; done)
      | (refine ⟨[], (List.append_nil _).symm, ?_⟩; simp [Micro.run])
      | (refine ⟨[_], rfl, ?_⟩; simp [Micro.run, State.gpioDir, State.gpioWr, State.gpioDly]; done)
      | skip
  · refine ⟨[_], rfl, ?_⟩
    simp only [Micro.run, State.sample, putEng_eng]
    cases s.readLevel .dio <;> simp [nakAfter, ackOf]
  · simp only [Micro.run]
    split
    · exact ⟨_, rfl, by simp [State.gpioWr]⟩
    · exact ⟨[], (List.append_nil _).symm, by simp⟩

theorem runAll_nak (ms : List Micro) (s : State) (h : ms.all keepsNak = true) :
    ∃ es, (runAll ms s).trace = s.trace ++ es ∧
      (runAll ms s).eng.nak = (s.eng.nak || decide (Event.rd .dio .high ∈ es)) := by
  induction ms generalizing s with
  | nil => exact ⟨[], (List.append_nil _).symm, by simp⟩
  | cons m ms ih =>
    rw [List.all_cons, Bool.and_eq_true] at h
    obtain ⟨a, ha, ha2⟩ := run_nak m s h.1
    obtain ⟨b, hb, hb2⟩ := ih (m.run s) h.2
    refine ⟨a ++ b, by rw [runAll_cons, hb, ha, List.append_assoc], ?_⟩
    rw [runAll_cons, hb2, ha2]
    simp [Bool.or_assoc]

/-- Two states that differ at most in answers, pin latches and the engine's byte registers. -/
def SameBut (s t : State) : Prop := s.cfg = t.cfg ∧ s.ctl = t.ctl ∧ s.eng.daddr = t.eng.daddr ∧ s.pins.dirr = t.pins.dirr

/-- No entry turns a difference in answers into one of the controller, the directions or `DADDR` (R123). -/
theorem run_sameBut (m : Micro) {s t : State} (h : SameBut s t) : SameBut (m.run s) (m.run t) := by
  obtain ⟨h1, h2, h3, h4⟩ := h
  cases m <;>
    first
      | (refine ⟨h1, ?_, ?_, ?_⟩ <;>
          simp only [Micro.run, State.gpioDir, State.gpioWr, State.gpioDly, putCtl_ctl, putEng_eng, putCtl_eng, putEng_ctl,
            putPins_pins, emit_pins, emit_ctl, emit_eng, putPins_ctl, putPins_eng, putWire_ctl, putWire_eng, putWire_pins,
            putPort_ctl, putPort_eng, putPort_pins, putCtl_pins, putEng_pins, h2, h3, h4]; done)
      | skip
  · exact ⟨h1, h2, h3, h4⟩
  · have drive : ∀ u : State, SameBut u (Micro.drive.run u) := by
      intro u
      simp only [Micro.run]
      split <;> exact ⟨rfl, rfl, rfl, rfl⟩
    obtain ⟨a1, a2, a3, a4⟩ := drive s
    obtain ⟨b1, b2, b3, b4⟩ := drive t
    exact ⟨a1.symm.trans (h1.trans b1), a2.symm.trans (h2.trans b2), a3.symm.trans (h3.trans b3),
      a4.symm.trans (h4.trans b4)⟩

theorem runAll_sameBut (ms : List Micro) {s t : State} (h : SameBut s t) : SameBut (runAll ms s) (runAll ms t) := by
  induction ms generalizing s t with
  | nil => exact h
  | cons m ms ih => exact ih (run_sameBut m h)

/-! ## A wire byte changes nothing but the wire -/

theorem exec_wire {i : Instr} {s t : State} (hh : ¬isHostOp i = true) (h : exec i s = .next t) : ∃ w, t = s.putWire w := by
  cases i <;> first | (exact absurd rfl hh) | (injection h with hu; subst hu; exact ⟨_, rfl⟩)

end Sys2Proof.Machine
end

