-- ==== Sys2Proof/Laws/Device.lean ====
section
/-! SUPPORT. What the device sees of transactions sent one after another, and what it makes of them (R67 to R69). -/

namespace Sys2Proof.Machine

/-! ## Framing -/

/-- Bytes of an open transaction are noted with their acknowledgements. -/
theorem foldl_byte (bytes : List (Byte × Level)) (w : Wire) (bs : List (Byte × Bool)) (h : w.bus = .opened bs) :
    bytes.foldl (fun w x => w.byte true x.1 (ackOf x.2)) w =
      { w with bus := .opened (bs ++ bytes.map (fun x => (x.1, ackOf x.2))) } := by
  induction bytes generalizing w bs with
  | nil => simp [← h]
  | cons x xs ih =>
    rw [List.foldl_cons, ih (w.byte true x.1 (ackOf x.2)) (bs ++ [(x.1, ackOf x.2)]) (by simp [Wire.byte, h])]
    simp [Wire.byte, h]

theorem zip_answers (xs : List Byte) (as : List Level) (hl : as.length = xs.length) :
    ((xs.zip as).map (fun x => (x.1, ackOf x.2))).all (fun x => x.2) = as.all ackOf ∧
      ((xs.zip as).map (fun x => (x.1, ackOf x.2))).map (fun x => x.1) = xs := by
  induction xs generalizing as with
  | nil =>
    have : as = [] := List.length_eq_zero_iff.1 hl
    subst this
    exact ⟨rfl, rfl⟩
  | cons x xs ih =>
    cases as with
    | nil => simp at hl
    | cons a as =>
      obtain ⟨h1, h2⟩ := ih as (by simpa using hl)
      refine ⟨?_, ?_⟩
      · simp only [List.zip_cons_cons, List.map_cons, List.all_cons, h1]
      · simp only [List.zip_cons_cons, List.map_cons, h2]

/-- A transaction from a closed bus: queued when every byte was acknowledged, else nothing is known (R67). -/
theorem transaction_closed (w : Wire) (h : w.bus = .closed) (e : Env) (b : Byte) (bs : List Byte) :
    w.transaction (answered e (b :: bs)) =
      if (e.answersFor (b :: bs).length).all ackOf then { w with rx := w.rx ++ [(b, bs)] } else Wire.lost := by
  unfold Wire.transaction
  rw [foldl_byte _ _ [] (by simp [Wire.start, h])]
  obtain ⟨h1, h2⟩ := zip_answers bs (e.advance.answersFor bs.length) (answersFor_length _ _)
  simp only [answered, List.length_cons, Env.answersFor, List.zip_cons_cons, List.map_cons, List.nil_append, Wire.stop,
    Wire.start, h, List.all_cons, h1]
  rw [h2]

theorem all_ackOf (as : List Level) : as.all ackOf = true ↔ .high ∉ as := by
  induction as with
  | nil => simp
  | cons a as ih => cases a <;> simp_all [ackOf]

theorem settled_append (w : Wire) (b : Byte) (bs : List Byte) :
    ({ w with rx := w.rx ++ [(b, bs)] } : Wire).settled = w.settled.take b bs := by simp [Wire.settled]

/-- What a device makes of whole transactions, each a first byte and the rest. -/
def Device.takeAll (d : Device) (txs : List (List Byte)) : Device := txs.foldl (fun d tx => d.take tx.head! tx.tail) d

/-- Transactions that were acknowledged all reach the device, in order. -/
theorem sentWire_acked (txs : List (List Byte)) (w : Wire) (e : Env) (hb : w.bus = .closed) (hn : ∀ tx ∈ txs, tx ≠ [])
    (ha : .high ∉ e.answersFor txs.flatten.length) :
    (sentWire w e txs).bus = .closed ∧ (sentWire w e txs).settled = w.settled.takeAll txs := by
  induction txs generalizing w e with
  | nil => exact ⟨hb, rfl⟩
  | cons tx txs ih =>
    obtain ⟨b, bs, rfl⟩ := List.exists_cons_of_ne_nil (hn tx (by simp))
    simp only [List.flatten_cons, List.length_append, answersFor_add, List.mem_append, not_or] at ha
    rw [sentWire, transaction_closed w hb, if_pos ((all_ackOf _).2 ha.1)]
    obtain ⟨h1, h2⟩ := ih { w with rx := w.rx ++ [(b, bs)] } (e.after (b :: bs).length) hb (fun x hx => hn x (by simp [hx])) ha.2
    refine ⟨h1, ?_⟩
    rw [h2, settled_append]
    rfl

theorem foldl_nakAfter (as : List Level) (n : Bool) :
    as.foldl nakAfter n = (n || as.any (fun a => decide (a = .high))) := by
  induction as generalizing n with
  | nil => simp
  | cons a as ih => rw [List.foldl_cons, ih]; cases a <;> simp [nakAfter, ackOf]

/-- When `NAK` is still 0 after sending, every byte was acknowledged (R32), and the device has taken it all. -/
theorem Sends.acked {s t : State} {txs : List (List Byte)} (h : Sends s t txs) (hd : s.pins.driven = true)
    (hb : s.wire.bus = .closed) (hn : ∀ tx ∈ txs, tx ≠ []) (hk : t.eng.nak = false) :
    s.eng.nak = false ∧ t.wire.bus = .closed ∧ t.wire.settled = s.wire.settled.takeAll txs := by
  have h1 := h.nak
  rw [foldl_nakAfter, hk] at h1
  have h2 := Eq.symm h1
  rw [Bool.or_eq_false_iff] at h2
  refine ⟨h2.1, ?_⟩
  rw [h.wire ⟨hb, hd⟩]
  refine sentWire_acked _ _ _ hb hn fun hc => ?_
  have := List.any_eq_false.1 h2.2 _ hc
  simp at this

/-! ## The rules for a whole transaction -/

theorem take_fixed (d : Device) : d.take 0x44 [] = { d with mode := some .fixed } := rfl

theorem take_auto (d : Device) : d.take 0x40 [] = { d with mode := some .autoIncrement } := rfl

theorem take_addr (d : Device) (p : Digit) (vs : List Byte) :
    d.take (0xC0 + digitByte p) vs = Device.takeData { d with ptr := some p } vs := by
  fin_cases p <;> rfl

theorem onByte_range : ∀ l : BitVec 3, 0x88 ≤ (onByte l).toNat ∧ (onByte l).toNat ≤ 0x8F ∧
    BitVec.ofNat 3 ((onByte l).toNat - 0x88) = l := by decide

/-- The display-on command sets `dev_on` and `dev_br` and leaves the rest (R68). -/
theorem take_on (d : Device) (l : BitVec 3) : d.take (onByte l) [] = { d with on := some true, br := some l } := by
  obtain ⟨h1, h2, h3⟩ := onByte_range l
  unfold Device.take
  rw [if_neg (by omega), if_pos (by rfl), if_neg (by omega), if_neg (by omega), if_neg (by omega), if_pos ⟨h1, h2⟩, h3]

/-- The decoder and the ranges of R68 agree on every first byte. -/
theorem take_eq_decode (b : Byte) (rest : List Byte) (d : Device) :
    d.take b rest = match decodeWire .first b with
      | .ok .wAuto => if rest.isEmpty then { d with mode := some .autoIncrement } else .unknown
      | .ok .wFixed => if rest.isEmpty then { d with mode := some .fixed } else .unknown
      | .ok .wOff => if rest.isEmpty then { d with on := some false } else .unknown
      | .ok (.wOn l) => if rest.isEmpty then { d with on := some true, br := some l } else .unknown
      | .ok (.wAddr i) => Device.takeData { d with ptr := some i } rest
      | _ => .unknown := by
  have k1 : 0xC0 ≤ b.toNat ∧ b.toNat ≤ 0xC3 → decodeWire .first b = .ok (.wAddr (Fin.ofNat 4 (b.toNat - 0xC0))) := by
    revert b; decide
  have k2 : b.toNat = 0x40 → decodeWire .first b = .ok .wAuto := by clear k1; revert b; decide
  have k3 : b.toNat = 0x44 → decodeWire .first b = .ok .wFixed := by clear k1 k2; revert b; decide
  have k4 : b.toNat = 0x80 → decodeWire .first b = .ok .wOff := by clear k1 k2 k3; revert b; decide
  have k5 : 0x88 ≤ b.toNat ∧ b.toNat ≤ 0x8F → decodeWire .first b = .ok (.wOn (BitVec.ofNat 3 (b.toNat - 0x88))) := by
    clear k1 k2 k3 k4; revert b; decide
  have k6 : ¬(0xC0 ≤ b.toNat ∧ b.toNat ≤ 0xC3) → ¬b.toNat = 0x40 → ¬b.toNat = 0x44 → ¬b.toNat = 0x80 →
      ¬(0x88 ≤ b.toNat ∧ b.toNat ≤ 0x8F) → decodeWire .first b = .error (.unlistedWireByte b) := by
    clear k1 k2 k3 k4 k5; revert b; decide
  unfold Device.take
  by_cases h1 : 0xC0 ≤ b.toNat ∧ b.toNat ≤ 0xC3
  · rw [if_pos h1, k1 h1]
  rw [if_neg h1]
  by_cases h2 : b.toNat = 0x40
  · simp [k2 h2, h2]
  by_cases h3 : b.toNat = 0x44
  · simp [k3 h3, h3]
  by_cases h4 : b.toNat = 0x80
  · simp [k4 h4, h4]
  by_cases h5 : 0x88 ≤ b.toNat ∧ b.toNat ≤ 0x8F
  · rw [k5 h5]; simp [h2, h3, h4, h5]
  · rw [k6 h1 h2 h3 h4 h5]; simp [h2, h3, h4, h5]

/-- One data byte taken on the wire is one data byte of the rule (R69). -/
theorem data_takeData (w : Wire) (v : Byte) :
    (w.data v).dev.takeData (w.data v).cur = w.dev.takeData (v :: w.cur) ∧ (w.data v).rx = w.rx ∧
      (w.data v).cur.length ≤ w.cur.length := by
  unfold Wire.data
  cases hp : w.dev.ptr with
  | none => simp [Device.takeData, hp]
  | some p =>
    cases hm : w.dev.mode with
    | none => simp [Device.takeData, hp, hm]
    | some m =>
      cases m with
      | autoIncrement => simp [Device.takeData, hp, hm]
      | fixed => cases hc : w.cur <;> simp [Device.takeData, hp, hm, Wire.more, hc]

/-- Data bytes under auto-increment land at consecutive addresses (R69). -/
theorem takeData_auto (vs : List Byte) (d : Device) (p : Digit) (hp : d.ptr = some p) (hm : d.mode = some .autoIncrement)
    (hl : p.val + vs.length ≤ 4) (a : Nat) :
    (d.takeData vs).mem.read a =
      if p.val ≤ a ∧ a < p.val + vs.length then vs[a - p.val]? else d.mem.read a := by
  induction vs generalizing d p with
  | nil => simp [Device.takeData]
  | cons v vs ih =>
    simp only [Device.takeData, hp, hm]
    cases vs with
    | nil =>
      simp only [Device.takeData, Memory.read_write]
      by_cases ha : a = p.val
      · simp [ha]
      · rw [if_neg ha, if_neg]
        simp
        omega
    | cons w vs =>
      simp only [List.length_cons] at hl
      have hlt : p.val < 3 := by omega
      have hv : (p + 1).val = p.val + 1 := by simp [Fin.val_add]; omega
      rw [ih _ (p + 1) (by simp [nextPtr, hlt]) rfl (by rw [hv]; simp; omega), hv]
      by_cases h1 : a = p.val
      · rw [if_neg (by omega), if_pos (by simp; omega)]
        simp [h1]
      by_cases h2 : p.val ≤ a ∧ a < p.val + (v :: w :: vs).length
      · rw [if_pos (by simp at h2 ⊢; omega), if_pos h2]
        have : a - p.val = (a - (p.val + 1)) + 1 := by omega
        rw [this]
        rfl
      · rw [if_neg (by simp at h2 ⊢; omega), if_neg h2]
        simp [h1]

/-- XFER puts each code at its digit's physical index and nothing anywhere else, for an injective multiplexer. -/
theorem takeAll_xfer (cfg : Config) (hinj : ∀ a b, phys cfg a = phys cfg b → a = b) (d : Digit) (vs : List Byte)
    (hl : d.val + vs.length ≤ 4) (dev : Device) (e : Digit) :
    (dev.takeAll (xferTransactions cfg d vs)).mem.read (phys cfg e).val =
      if d.val ≤ e.val ∧ e.val < d.val + vs.length then some (vs.getD (e.val - d.val) 0)
      else dev.mem.read (phys cfg e).val := by
  unfold xferTransactions
  cases hm : cfg.mode with
  | autoIncrement =>
    have hp : ∀ e, phys cfg e = e := by intro e; simp [phys, hm]
    show ((dev.take 0x40 []).take (0xC0 + digitByte d) vs).mem.read _ = _
    rw [take_addr, take_auto, hp, takeData_auto vs _ d rfl rfl hl]
    split
    · rw [List.getElem?_eq_getElem (by omega), List.getD_eq_getElem?_getD, List.getElem?_eq_getElem (by omega)]
      rfl
    · rfl
  | fixed =>
    simp only
    induction vs generalizing d dev with
    | nil => simp [digitTransactions, Device.takeAll]
    | cons v vs ih =>
      show (Device.takeAll ((dev.take 0x44 []).take (0xC0 + digitByte (phys cfg d)) [v])
        (digitTransactions cfg (d + 1) vs)).mem.read _ = _
      rw [take_addr, take_fixed]
      have hone : (Device.takeData { ({ dev with mode := some .fixed } : Device) with ptr := some (phys cfg d) } [v]).mem.read
          (phys cfg e).val = if e = d then some v else dev.mem.read (phys cfg e).val := by
        simp only [Device.takeData, List.isEmpty_nil, if_true, Memory.read_write]
        by_cases h : e = d
        · simp [h]
        · rw [if_neg h, if_neg]
          intro h'
          exact h (hinj _ _ (Fin.ext h'))
      cases vs with
      | nil =>
        simp only [digitTransactions, Device.takeAll, List.foldl_nil]
        rw [hone]
        by_cases h : e = d
        · simp [h]
        · rw [if_neg h, if_neg]
          intro h'
          apply h
          apply Fin.ext
          simp at h'
          omega
      | cons w vs =>
        simp only [List.length_cons] at hl
        have hv : (d + 1).val = d.val + 1 := by simp [Fin.val_add]; omega
        rw [ih (d + 1) (by rw [hv]; simp; omega), hv, hone]
        by_cases he : e = d
        · subst he
          rw [if_neg (by omega), if_pos rfl, if_pos (by simp)]
          simp
        · have hne : e.val ≠ d.val := fun h => he (Fin.ext h)
          by_cases h2 : d.val ≤ e.val ∧ e.val < d.val + (v :: w :: vs).length
          · rw [if_pos (by simp at h2 ⊢; omega), if_pos h2]
            have : e.val - d.val = (e.val - (d.val + 1)) + 1 := by omega
            rw [this]
            rfl
          · rw [if_neg (by simp at h2 ⊢; omega), if_neg h2, if_neg he]

theorem takeData_mode (vs : List Byte) (d : Device) :
    (d.takeData vs).mode = d.mode ∧ (d.takeData vs).on = d.on ∧ (d.takeData vs).br = d.br := by
  induction vs generalizing d with
  | nil => exact ⟨rfl, rfl, rfl⟩
  | cons v vs ih =>
    unfold Device.takeData
    split
    · exact ih _
    · split <;> exact ⟨rfl, rfl, rfl⟩
    · exact ⟨rfl, rfl, rfl⟩
    · exact ⟨rfl, rfl, rfl⟩

/-- XFER leaves the device in the build's addressing mode (R155, R156). -/
theorem takeAll_xfer_mode (cfg : Config) (d : Digit) (vs : List Byte) (hv : vs ≠ []) (dev : Device) :
    (dev.takeAll (xferTransactions cfg d vs)).mode = some cfg.mode := by
  unfold xferTransactions
  cases hm : cfg.mode with
  | autoIncrement =>
    show ((dev.take 0x40 []).take (0xC0 + digitByte d) vs).mode = _
    rw [take_addr, (takeData_mode _ _).1, take_auto]
  | fixed =>
    simp only
    induction vs generalizing d dev with
    | nil => exact absurd rfl hv
    | cons v vs ih =>
      show (Device.takeAll ((dev.take 0x44 []).take (0xC0 + digitByte (phys cfg d)) [v])
        (digitTransactions cfg (d + 1) vs)).mode = _
      cases vs with
      | nil =>
        simp only [digitTransactions, Device.takeAll, List.foldl_nil]
        rw [take_addr, (takeData_mode _ _).1, take_fixed]
      | cons w vs => exact ih _ (by simp) _

theorem xferTransactions_nonempty (cfg : Config) (d : Digit) (vs : List Byte) : ∀ tx ∈ xferTransactions cfg d vs, tx ≠ [] := by
  have hd : ∀ (vs : List Byte) (d : Digit), ∀ tx ∈ digitTransactions cfg d vs, tx ≠ [] := by
    intro vs
    induction vs with
    | nil => intro d tx h; simp [digitTransactions] at h
    | cons v vs ih =>
      intro d tx h
      simp only [digitTransactions, List.mem_cons] at h
      rcases h with rfl | rfl | h
      · exact List.cons_ne_nil _ _
      · exact List.cons_ne_nil _ _
      · exact ih _ _ h
  unfold xferTransactions
  split
  · simp
  · exact hd _ _

/-! ## The canonical form of the device's memory -/

theorem Wire.framing_mem_wf (w : Wire) (b : Bool) (h : w.dev.mem.wf = true) :
    (w.start b).dev.mem.wf = true ∧ (w.stop b).dev.mem.wf = true ∧ (w.glitch b).dev.mem.wf = true ∧
      ∀ v a, (w.byte b v a).dev.mem.wf = true := by
  refine ⟨?_, ?_, ?_, fun v a => ?_⟩
  · unfold Wire.start; split <;> simp_all [Wire.lost, Device.unknown]
  · unfold Wire.stop
    split
    · split_ifs
      · exact h
      · rfl
    · rfl
    · rfl
    · rfl
  · unfold Wire.glitch; split <;> simp_all [Wire.lost, Device.unknown]
  · unfold Wire.byte; split <;> simp_all [Wire.lost, Device.unknown]

theorem runAll_mem_wf (ms : List Micro) (s : State) (h : s.wire.dev.mem.wf = true) :
    (runAll ms s).wire.dev.mem.wf = true := by
  induction ms generalizing s with
  | nil => exact h
  | cons m ms ih =>
    refine ih _ ?_
    cases m <;>
      first
        | exact h
        | exact (Wire.framing_mem_wf _ _ h).1
        | exact (Wire.framing_mem_wf _ _ h).2.1
        | exact (Wire.framing_mem_wf _ _ h).2.2.1
        | exact (Wire.framing_mem_wf _ _ h).2.2.2 _ _
        | (simp only [Micro.run]; split <;> exact h)

theorem Wire.data_mem_wf (w : Wire) (v : Byte) (h : w.dev.mem.wf = true) : (w.data v).dev.mem.wf = true := by
  unfold Wire.data
  split
  · exact Memory.wf_write _ _ _ h (Fin.isLt _)
  · split
    · rfl
    · exact Memory.wf_write _ _ _ h (Fin.isLt _)
  · rfl
  · rfl

theorem Wire.command_mem_wf (w : Wire) (f : Device → Device) (hf : (f w.dev).mem = w.dev.mem) (h : w.dev.mem.wf = true) :
    (w.command f).dev.mem.wf = true := by
  unfold Wire.command
  split
  · rfl
  · simpa [hf] using h

end Sys2Proof.Machine
end

