-- ==== Sys2Proof/Laws/Display.lean ====
section
/-! SUPPORT. What the lists of the display operations do, each said once: which codes they write to `DR` and show, and that the
codes fit the configured digits. -/

namespace Sys2Proof.Machine

/-! ## Operands -/

theorem digitCount_bounds (nd : DigitCount) : 1 ≤ nd.toNat ∧ nd.toNat ≤ 4 := by cases nd <;> simp [DigitCount.toNat]

theorem replicate_ne_nil (nd : DigitCount) (c : Byte) : List.replicate nd.toNat c ≠ [] := by
  cases nd <;> simp [DigitCount.toNat]

/-- The clamped start is `min(s, ND - m)` (R184). -/
theorem clampStart_val (nd : DigitCount) (m : Nat) (st : Byte) (h1 : 1 ≤ m) (h : m ≤ nd.toNat) :
    (clampStart nd m st).val = min st.toNat (nd.toNat - m) := by
  have := digitCount_bounds nd
  simp [clampStart, Fin.ofNat]
  omega

theorem clampStart_eq {nd : DigitCount} {m : Nat} {st : Byte} {d : Digit} (h : d.val = min st.toNat (nd.toNat - m)) :
    clampStart nd m st = d := by
  unfold clampStart
  rw [← h]
  apply Fin.ext
  simp [Fin.ofNat]

theorem fieldCodes_length (cfg : Config) (dec : Bool) (w m : Nat) : (fieldCodes cfg dec w m).length = m := by
  unfold fieldCodes
  rw [List.length_map]
  induction m with
  | zero => rfl
  | succ m ih => simp [fieldDigits, ih]

/-- With a legal table every code looked up has bit 7 zero (R96, R145). -/
theorem lookupCode_lt (cfg : Config) (h : cfg.wf = true) (n : Nat) : (lookupCode cfg n).toNat < 0x80 := by
  have hc : cfg.chartab.all (fun e => decide (e.toNat < 0x80)) = true := by
    simp only [Config.wf, Config.tableWf, Bool.and_eq_true] at h
    tauto
  rw [List.all_eq_true] at hc
  unfold lookupCode
  split
  · rw [List.getD_eq_getElem?_getD]
    cases hg : cfg.chartab[n]? with
    | none => simp [blankCode]
    | some c => simpa using hc c (List.mem_of_getElem? hg)
  · simp [blankCode]

theorem rawCode_lt (v : Byte) : (rawCode v).toNat < 0x80 := by
  unfold rawCode
  rw [BitVec.toNat_and]
  exact lt_of_le_of_lt Nat.and_le_right (by decide)

theorem shownCodes_get (nd : DigitCount) (q : Quad Byte) :
    (shownCodes nd q).length = nd.toNat ∧ ∀ e : Digit, e.val < nd.toNat → (shownCodes nd q).getD e.val 0 = q.get e := by
  refine ⟨by cases nd <;> rfl, fun e he => ?_⟩
  revert he
  cases nd <;> fin_cases e <;> simp [shownCodes, DigitCount.toNat, Quad.toList] <;> rfl

theorem shownCodes_ne_nil (nd : DigitCount) (q : Quad Byte) : shownCodes nd q ≠ [] := by
  cases nd <;> simp [shownCodes, DigitCount.toNat, Quad.toList]

/-- Reading a digit register after a run of codes was written. -/
theorem Quad.get_setRun (vs : List Byte) (q : Quad Byte) (d : Digit) (hl : d.val + vs.length ≤ 4) (e : Digit) :
    (Quad.setRun q d vs).get e =
      if d.val ≤ e.val ∧ e.val < d.val + vs.length then vs.getD (e.val - d.val) 0 else q.get e := by
  induction vs generalizing q d with
  | nil => simp [Quad.setRun]
  | cons v vs ih =>
    simp only [Quad.setRun]
    cases vs with
    | nil =>
      simp only [Quad.setRun, Quad.get_set]
      by_cases he : e = d
      · simp [he]
      · rw [if_neg he, if_neg]
        intro h
        apply he
        apply Fin.ext
        simp at h
        omega
    | cons w vs =>
      simp only [List.length_cons] at hl
      have hv : (d + 1).val = d.val + 1 := by simp [Fin.val_add]; omega
      rw [ih _ _ (by rw [hv]; simp; omega), hv, Quad.get_set]
      by_cases he : e = d
      · subst he
        rw [if_neg (by omega), if_pos (by simp)]
        simp
      · have hne : e.val ≠ d.val := fun h => he (Fin.ext h)
        by_cases h2 : d.val ≤ e.val ∧ e.val < d.val + (v :: w :: vs).length
        · rw [if_pos (by simp at h2 ⊢; omega), if_pos h2]
          have : e.val - d.val = (e.val - (d.val + 1)) + 1 := by omega
          rw [this]
          rfl
        · rw [if_neg (by simp at h2 ⊢; omega), if_neg h2, if_neg he]

/-! ## What the lists show -/

/-- DISPCLEAR shows blanks, and then the point off when the quirk is active (R173). -/
theorem shows_dispclear (s : State) (nd : DigitCount) (qk : Bool) :
    (qk = false → Shows s (runAll (dispclearList s.cfg nd qk) s) 0 (List.replicate nd.toNat 0x00)) ∧
    (qk = true → ∃ u, Shows s u 0 (List.replicate nd.toNat 0x00) ∧ Shows u (runAll (dispclearList s.cfg nd qk) s) 3 [0x00]) := by
  have h := shows_showList s 0 (List.replicate nd.toNat 0x00) (replicate_ne_nil _ _)
  constructor
  · rintro rfl
    simp only [dispclearList, dispdpList, Bool.false_eq_true, if_false, List.append_nil]
    exact h
  · rintro rfl
    refine ⟨_, h, ?_⟩
    simp only [dispclearList, dispdpList, if_true, runAll_append]
    have h2 := shows_showList (runAll (showList s.cfg 0 (List.replicate nd.toNat 0x00)) s) 3 [0x00] (by simp)
    rw [h.sends.cfg] at h2
    exact h2

/-- A number of m digits with room for it (R183, R184). -/
theorem shows_field (s : State) (m : Nat) (hm : m ≠ 0) (st : Byte) (dec : Bool) (w : Nat) (d : Digit)
    (h : m ≤ s.ctl.nd.toNat) (hd : d.val = min st.toNat (s.ctl.nd.toNat - m)) :
    Shows s (runAll (fieldList s.cfg s.ctl.nd m st dec w) s) d (fieldCodes s.cfg dec w m) := by
  have : ¬s.ctl.nd.toNat < m := by omega
  rw [fieldList, if_neg this, clampStart_eq hd]
  apply shows_showList
  intro h0
  have := fieldCodes_length s.cfg dec w m
  rw [h0] at this
  exact hm this.symm

/-- DISPBRIGHT stores the level and sends the command (R174). -/
theorem sends_dispbright (s : State) (l : Byte) :
    Sends (s.putCtl { s.ctl with br := levelBits l }) (runAll (dispbrightList l) s) [[onByte (levelBits l)]] ∧
      (runAll (dispbrightList l) s).eng.daddr = s.eng.daddr :=
  sends_sendcmd (s.putCtl { s.ctl with br := levelBits l }) (onByte (levelBits l))

/-- XFER from digit 0 on, then of digit 3 alone when the quirk is active (R181). -/
theorem sends_xfer_point (s : State) (vs : List Byte) (hv : vs ≠ []) (qk : Bool) (c : Byte) :
    Sends s (runAll (xferList s.cfg 0 vs ++ (if qk then xferList s.cfg 3 [c] else [])) s)
      (xferTransactions s.cfg 0 vs ++ (if qk = true then xferTransactions s.cfg 3 [c] else [])) := by
  have h := (sends_xfer s s.cfg 0 vs hv).1
  rw [runAll_append]
  cases qk with
  | false => simpa using h
  | true => exact h.append (sends_xfer _ _ 3 [c] (by simp)).1 (xferTransactions_ne_nil _ _ _ (by simp))

/-! ## BEGIN -/

/-- The state in which BEGIN starts to send: configured, both pins outputs (R171). -/
def beginStart (s : State) (n : Byte) : State :=
  { s with
    eng := { s.eng with nak := false }
    ctl :=
      { init := true, nd := requestedCount n, br := s.ctl.br, qk := quirkFlag s.cfg (requestedCount n), dr := s.ctl.dr }
    pins := { s.pins with dirr := ⟨.out, .out⟩ }
    trace := s.trace ++ [.dir .clk .out, .dir .dio .out]
    wire := s.wire.glitch s.pins.driven }

theorem runAll_beginList (n b : Byte) (s : State) :
    runAll (beginList s.cfg n b) s =
      runAll (dispbrightList b)
        (runAll (dispclearList s.cfg (requestedCount n) (quirkFlag s.cfg (requestedCount n))) (beginStart s n)) := by
  unfold beginList
  rw [runAll_append, runAll_append]
  congr 2
  simp [Micro.run, State.putCtl, State.putEng, State.putWire, State.gpioDir, State.putPins, State.emit, beginStart, Pair.set,
    Pins.driven]

/-- Sending does not look at the controller. -/
theorem Sends.withCtl {s t : State} {c : Controller} {txs : List (List Byte)} (h : Sends (s.putCtl c) t txs)
    (c' : Controller) : Sends (s.putCtl c') (t.putCtl c') txs :=
  ⟨h.cfg, rfl, h.seq, h.ops, h.trace, h.env, h.lat, h.dirr, h.sr, h.bc, h.ack, h.nak, h.wire⟩

/-- What BEGIN is, in one piece: configured and cleared, it sends the blanks, the point off with the quirk, and the level. -/
theorem sends_begin (n b : Byte) (s : State) :
    let nd := requestedCount n
    let qk := quirkFlag s.cfg nd
    let t := runAll (beginList s.cfg n b) s
    ∃ dr : Quad Byte,
      dr = (if qk = true then (Quad.setRun s.ctl.dr 0 (List.replicate nd.toNat 0x00)).set 3 0x00
        else Quad.setRun s.ctl.dr 0 (List.replicate nd.toNat 0x00)) ∧
      Sends ((beginStart s n).putCtl { init := true, nd := nd, br := levelBits b, qk := qk, dr := dr }) t
        (xferTransactions s.cfg 0 (List.replicate nd.toNat 0x00) ++
          (if qk = true then xferTransactions s.cfg 3 [0x00] else []) ++ [[onByte (levelBits b)]]) ∧
      t.eng.daddr =
        (if qk = true then xferDaddr s.cfg 3 [0x00] else xferDaddr s.cfg 0 (List.replicate nd.toNat 0x00)) := by
  refine ⟨_, rfl, ?_⟩
  rw [runAll_beginList]
  obtain ⟨h1, h2⟩ := shows_dispclear (beginStart s n) (requestedCount n) (quirkFlag s.cfg (requestedCount n))
  set u := runAll (dispclearList s.cfg (requestedCount n) (quirkFlag s.cfg (requestedCount n))) (beginStart s n) with hu
  obtain ⟨h3, h4⟩ := sends_dispbright u b
  have hc : (beginStart s n).cfg = s.cfg := rfl
  rw [hc, ← hu] at h1 h2
  have whole : ∀ {c c' : Controller} {v : State} {xs : List (List Byte)}, Sends (v.putCtl c) u xs →
      u.ctl = { c' with br := u.ctl.br } → c'.br = levelBits b →
      Sends (v.putCtl c') (runAll (dispbrightList b) u) (xs ++ [[onByte (levelBits b)]]) := by
    intro c c' v xs h hctl hbr
    have h' := (h.withCtl c').append (h3.withCtl c') (by simp)
    have e : (runAll (dispbrightList b) u).putCtl c' = runAll (dispbrightList b) u := by
      apply State.ext_parts <;> first | rfl | skip
      rw [h3.ctl, putCtl_ctl, putCtl_ctl, hctl, ← hbr]
    rwa [e] at h'
  cases hq : quirkFlag s.cfg (requestedCount n) with
  | false =>
    have ha := h1 hq
    simp only [Bool.false_eq_true, if_false, List.append_nil]
    refine ⟨whole ha.sends ?_ rfl, by rw [h4, ha.daddr, hc]⟩
    rw [ha.sends.ctl]
    simp [beginStart, hq]
  | true =>
    obtain ⟨w, ha, hb⟩ := h2 hq
    have hw : w.cfg = s.cfg := ha.sends.cfg
    simp only [if_true]
    refine ⟨whole ((ha.sends.withCtl _).append (hw ▸ hb.sends.withCtl _) (xferTransactions_ne_nil _ _ _ (by simp))) ?_ rfl,
      by rw [h4, hb.daddr, hw]⟩
    rw [hb.sends.ctl, putCtl_ctl, ha.sends.ctl]
    simp [beginStart, hq, Quad.setRun]

/-! ## From an open transaction (R70, log entry 8) -/

/-- START inside an open transaction is START with nothing known of the device. -/
theorem runAll_startList_opened {s : State} {bs : List (Byte × Bool)} (hd : s.pins.driven = true) (h : s.wire.bus = .opened bs) :
    runAll startList s = runAll startList (s.putWire Wire.lost) := by
  rw [runAll_startList, runAll_startList]
  simp [State.putWire, Wire.start, hd, h, Wire.lost]

/-- So is an XFER, which begins with one. -/
theorem runAll_xferList_opened {s : State} {bs : List (Byte × Bool)} (hd : s.pins.driven = true) (h : s.wire.bus = .opened bs)
    (cfg : Config) (d : Digit) (vs : List Byte) (hv : vs ≠ []) :
    runAll (xferList cfg d vs) s = runAll (xferList cfg d vs) (s.putWire Wire.lost) := by
  obtain ⟨v, vs, rfl⟩ := List.exists_cons_of_ne_nil hv
  unfold xferList
  split <;>
    simp only [wrrunList, xferFixedList, wrdigitList, sendcmdList, runAll_append, runAll_startList_opened hd h]

/-- And a BEGIN, from any state. -/
theorem runAll_beginList_opened {s : State} {bs : List (Byte × Bool)} (h : s.wire.bus = .opened bs) (n b : Byte) :
    runAll (beginList s.cfg n b) s = runAll (beginList s.cfg n b) (s.putWire Wire.lost) := by
  have hl : beginStart (s.putWire Wire.lost) n = (beginStart s n).putWire Wire.lost := by
    unfold beginStart Wire.glitch
    split <;> rfl
  rw [runAll_beginList, show beginList s.cfg n b = beginList (s.putWire Wire.lost).cfg n b from rfl, runAll_beginList, hl]
  congr 1
  by_cases hd : s.pins.driven = true
  · unfold dispclearList showList
    simp only [putWire_cfg, runAll_append, runAll_setRunList]
    rw [runAll_xferList_opened (bs := bs) rfl (by simp [beginStart, Wire.glitch, hd, h]) _ _ _ (replicate_ne_nil _ _)]
    rfl
  · have : beginStart s n = (beginStart s n).putWire Wire.lost := by
      simp [beginStart, Wire.glitch, hd, State.putWire]
    rw [← this]
    rfl

/-! ## Slots -/

/-- The codes fit behind digit d and are SegmentCodes, or they are the point's code at digit 3 (R26, R28). -/
def SlotOk (s : State) (d : Digit) (vs : List Byte) : Prop :=
  vs ≠ [] ∧ ((d.val + vs.length ≤ s.ctl.nd.toNat ∧ ∀ v ∈ vs, v.toNat < 0x80) ∨
    (s.ctl.qk = true ∧ d = 3 ∧ ∃ c, vs = [c] ∧ (c = s.cfg.dpOnCode ∨ c = dpOffCode)))

theorem SlotOk.fits {s : State} {d : Digit} {vs : List Byte} (ok : SlotOk s d vs) : d.val + vs.length ≤ 4 := by
  obtain ⟨-, ok⟩ := ok
  have := digitCount_bounds s.ctl.nd
  rcases ok with ⟨h, -⟩ | ⟨-, rfl, c, rfl, -⟩
  · omega
  · simp

/-- From s to t a display operation has shown some slots, one after another (perhaps none). -/
inductive Shown : State → State → Prop
  | nothing (s : State) : Shown s s
  | slot {s u t : State} {d : Digit} {vs : List Byte} : SlotOk s d vs → Shows s u d vs → Shown u t → Shown s t

theorem shown_field (s : State) (hw : s.cfg.wf = true) (m : Nat) (hm : 1 ≤ m) (st : Byte) (dec : Bool) (w : Nat) :
    Shown s (runAll (fieldList s.cfg s.ctl.nd m st dec w) s) := by
  by_cases h : s.ctl.nd.toNat < m
  · rw [fieldList, if_pos h]
    exact .nothing _
  · have h' : m ≤ s.ctl.nd.toNat := by omega
    refine .slot (d := clampStart s.ctl.nd m st) (vs := fieldCodes s.cfg dec w m) ⟨?_, .inl ⟨?_, ?_⟩⟩
      (shows_field s m (by omega) st dec w _ h' (clampStart_val _ _ _ hm h')) (.nothing _)
    · intro h0
      have := fieldCodes_length s.cfg dec w m
      rw [h0] at this
      simp at this
      omega
    · rw [clampStart_val _ _ _ hm h', fieldCodes_length]
      omega
    · intro v hv
      simp only [fieldCodes, List.mem_map] at hv
      obtain ⟨n, -, rfl⟩ := hv
      exact lookupCode_lt _ hw _

theorem shown_dispdp (s : State) (on : Bool) : Shown s (runAll (dispdpList s.cfg s.ctl.qk on) s) := by
  cases hq : s.ctl.qk with
  | false => exact .nothing _
  | true =>
    refine .slot (d := 3) (vs := [dpCode s.cfg on]) ⟨by simp, .inr ⟨hq, rfl, _, rfl, ?_⟩⟩ (shows_showList s 3 _ (by simp))
      (.nothing _)
    cases on <;> simp [dpCode]

theorem shown_dispclear (s : State) : Shown s (runAll (dispclearList s.cfg s.ctl.nd s.ctl.qk) s) := by
  obtain ⟨h1, h2⟩ := shows_dispclear s s.ctl.nd s.ctl.qk
  have ok : SlotOk s 0 (List.replicate s.ctl.nd.toNat 0x00) := ⟨replicate_ne_nil _ _, .inl ⟨by simp, by simp⟩⟩
  cases hq : s.ctl.qk with
  | false => rw [hq] at h1; exact .slot ok (h1 rfl) (.nothing _)
  | true =>
    rw [hq] at h2
    obtain ⟨u, ha, hb⟩ := h2 rfl
    refine .slot ok ha (.slot ⟨by simp, .inr ⟨?_, rfl, _, rfl, .inr rfl⟩⟩ hb (.nothing _))
    rw [ha.sends.ctl]
    exact hq

theorem shown_dispchar (s : State) (hw : s.cfg.wf = true) (d v : Byte) (raw : Bool) :
    Shown s (runAll (dispcharList s.cfg s.ctl.nd d v raw) s) := by
  refine .slot (d := clampStart s.ctl.nd 1 d) (vs := [charCode s.cfg v raw]) ⟨by simp, .inl ⟨?_, ?_⟩⟩
    (shows_showList s _ _ (by simp)) (.nothing _)
  · have := digitCount_bounds s.ctl.nd
    rw [clampStart_val _ _ _ le_rfl this.1]
    simp
    omega
  · intro v' hv'
    simp at hv'
    subst hv'
    cases raw
    · exact lookupCode_lt _ hw _
    · exact rawCode_lt _

/-- Showing slots changes nothing of the controller but `DR`. -/
theorem Shown.ctl {s t : State} (h : Shown s t) :
    t.ctl.init = s.ctl.init ∧ t.ctl.nd = s.ctl.nd ∧ t.ctl.qk = s.ctl.qk ∧ t.ctl.br = s.ctl.br ∧ t.cfg = s.cfg := by
  induction h with
  | nothing => simp
  | slot a b c ih =>
    obtain ⟨h1, h2, h3, h4, h5⟩ := ih
    rw [h1, h2, h3, h4, h5, b.sends.ctl, b.sends.cfg]
    simp

/-! ## The shadow and the device -/

/-- The device holds what `DR` holds for a logical digit. -/
def Agree (s : State) (e : Digit) : Prop := s.wire.settled.mem.read (phys s.cfg e).val = some (s.ctl.dr.get e)

/-- Showing codes with every byte acknowledged makes the shown digits agree and keeps the agreement of the others; a digit not
shown keeps its byte in the device. -/
theorem Shows.agree {s t : State} {d : Digit} {vs : List Byte} (hinj : ∀ a b, phys s.cfg a = phys s.cfg b → a = b)
    (hd : s.pins.driven = true) (hb : s.wire.bus = .closed) (hl : d.val + vs.length ≤ 4) (h : Shows s t d vs)
    (hk : t.eng.nak = false) :
    s.eng.nak = false ∧ t.wire.bus = .closed ∧
      (∀ e : Digit, (Agree s e ∨ (d.val ≤ e.val ∧ e.val < d.val + vs.length)) → Agree t e) ∧
      (∀ e : Digit, ¬(d.val ≤ e.val ∧ e.val < d.val + vs.length) →
        t.wire.settled.mem.read (phys s.cfg e).val = s.wire.settled.mem.read (phys s.cfg e).val) := by
  obtain ⟨h1, h2, h3⟩ := h.sends.acked hd hb (xferTransactions_nonempty _ _ _) hk
  simp only [putCtl_wire] at h3
  have hx := takeAll_xfer s.cfg hinj d vs hl s.wire.settled
  refine ⟨h1, h2, fun e he => ?_, fun e he => ?_⟩
  · unfold Agree
    rw [h3, h.sends.cfg, h.sends.ctl]
    simp only [putCtl_cfg, putCtl_ctl]
    rw [hx e, Quad.get_setRun vs _ _ hl]
    by_cases hc : d.val ≤ e.val ∧ e.val < d.val + vs.length
    · rw [if_pos hc, if_pos hc]
    · rw [if_neg hc, if_neg hc]
      exact he.resolve_right hc
  · rw [h3, hx e, if_neg he]

/-- Showing from a closed bus ends with a closed bus, whatever the answers. -/
theorem Shows.closed {s t : State} {d : Digit} {vs : List Byte} (h : Shows s t d vs) (hd : s.pins.driven = true)
    (hb : s.wire.bus = .closed) : t.pins.driven = true ∧ t.wire.bus = .closed := by
  have hb' := h.sends.busIdle ⟨hb, hd⟩
  exact ⟨hb'.2, hb'.1⟩

end Sys2Proof.Machine
end

