-- ==== Sys2Proof/Laws/PerInstr.lean ====
section
/-! SUPPORT. The opcode table as data, and that each instruction's encoding lies in its row (R80, R90). -/

namespace Sys2Proof.Laws

/-- Which of the table's formats a row has. -/
inductive Format where
  /-- First byte of a transaction. -/
  | wireFirst
  /-- A byte after an address byte. -/
  | wireData
  /-- A host operation. -/
  | op
  deriving DecidableEq, Repr

/-- A row of spec/opcode_table.json: the bits under the mask have the value `bits`. -/
structure Row where
  mnemonic : String
  format : Format
  mask : Nat
  bits : Nat
  deriving DecidableEq, Repr

/-- The rows of the wire bytes. -/
def wireRows : List Row :=
  [⟨"W.AUTO", .wireFirst, 0xFF, 0x40⟩,
   ⟨"W.FIXED", .wireFirst, 0xFF, 0x44⟩,
   ⟨"W.OFF", .wireFirst, 0xFF, 0x80⟩,
   ⟨"W.ON", .wireFirst, 0xF8, 0x88⟩,
   ⟨"W.ADDR", .wireFirst, 0xFC, 0xC0⟩,
   ⟨"W.DATA", .wireData, 0x00, 0x00⟩]

/-- The rows of the engine, encoder and addressing operations, and BEGIN. -/
def engineRows : List Row :=
  [⟨"START", .op, 0x1F, 0x00⟩,
   ⟨"STOP", .op, 0x1F, 0x01⟩,
   ⟨"WRBYTE", .op, 0x1F, 0x02⟩,
   ⟨"BITDELAY", .op, 0x1F, 0x03⟩,
   ⟨"LOOKUP", .op, 0x1F, 0x04⟩,
   ⟨"SENDCMD", .op, 0x1F, 0x05⟩,
   ⟨"WRDIGIT", .op, 0x1F, 0x06⟩,
   ⟨"WRRUN", .op, 0x1F, 0x07⟩,
   ⟨"BEGIN", .op, 0x1F, 0x08⟩]

/-- The rows of the other display operations. -/
def controllerRows : List Row :=
  [⟨"DISPOFF", .op, 0x1F, 0x09⟩,
   ⟨"DISPCLEAR", .op, 0x1F, 0x0A⟩,
   ⟨"DISPBRIGHT", .op, 0x1F, 0x0B⟩,
   ⟨"DISPCHAR", .op, 0x1F, 0x0C⟩,
   ⟨"DISPINT8", .op, 0x1F, 0x0D⟩,
   ⟨"DISPINT12", .op, 0x1F, 0x0E⟩,
   ⟨"DISPINT16", .op, 0x1F, 0x0F⟩,
   ⟨"DISPDP", .op, 0x1F, 0x10⟩,
   ⟨"DISPTEST", .op, 0x1F, 0x11⟩]

def table : List Row := wireRows ++ engineRows ++ controllerRows

/-- The format of an encoding. -/
def formatOf : Encoded → Format
  | .op _ => .op
  | .wire .first _ => .wireFirst
  | .wire .data _ => .wireData

/-- The bits the table numbers: the wire byte, or `op_sel`. -/
def tableBits : Encoded → Nat
  | .op w => w.sel.toNat
  | .wire _ b => b.toNat

/-- Rows of different formats, or of different bits where both masks are 1. -/
def Row.apart (r q : Row) : Bool := decide (r.format ≠ q.format) || decide (r.bits &&& q.mask ≠ q.bits &&& r.mask)

/-- No two rows match the same encoding. -/
theorem table_apart : table.Pairwise (fun r q => r.apart q = true) := by decide

namespace TableRow

/-- The encoding of an instruction lies in the table's row of its mnemonic. -/
def Statement (i : Instr) : Prop :=
  ∃ r ∈ table, r.mnemonic = i.mnemonic ∧ formatOf (encode i) = r.format ∧ tableBits (encode i) &&& r.mask = r.bits

theorem wAuto : Statement .wAuto :=
  ⟨⟨"W.AUTO", .wireFirst, 0xFF, 0x40⟩, by decide, rfl, rfl, rfl⟩

theorem wFixed : Statement .wFixed :=
  ⟨⟨"W.FIXED", .wireFirst, 0xFF, 0x44⟩, by decide, rfl, rfl, rfl⟩

theorem wOff : Statement .wOff :=
  ⟨⟨"W.OFF", .wireFirst, 0xFF, 0x80⟩, by decide, rfl, rfl, rfl⟩

theorem wOn (level : BitVec 3) : Statement (.wOn level) :=
  ⟨⟨"W.ON", .wireFirst, 0xF8, 0x88⟩, by decide, rfl, rfl, by revert level; decide⟩

theorem wAddr (i : Digit) : Statement (.wAddr i) :=
  ⟨⟨"W.ADDR", .wireFirst, 0xFC, 0xC0⟩, by decide, rfl, rfl, by revert i; decide⟩

theorem wData (v : Byte) : Statement (.wData v) :=
  ⟨⟨"W.DATA", .wireData, 0x00, 0x00⟩, by decide, rfl, rfl, Nat.and_zero _⟩

theorem start : Statement .start :=
  ⟨⟨"START", .op, 0x1F, 0x00⟩, by decide, rfl, rfl, rfl⟩

theorem stop : Statement .stop :=
  ⟨⟨"STOP", .op, 0x1F, 0x01⟩, by decide, rfl, rfl, rfl⟩

theorem wrbyte (v : Byte) : Statement (.wrbyte v) :=
  ⟨⟨"WRBYTE", .op, 0x1F, 0x02⟩, by decide, rfl, rfl, by simp [tableBits, encode, OpWord.bare]⟩

theorem bitdelay : Statement .bitdelay :=
  ⟨⟨"BITDELAY", .op, 0x1F, 0x03⟩, by decide, rfl, rfl, rfl⟩

theorem lookup (idx : Byte) : Statement (.lookup idx) :=
  ⟨⟨"LOOKUP", .op, 0x1F, 0x04⟩, by decide, rfl, rfl, by simp [tableBits, encode, OpWord.bare]⟩

theorem sendcmd (c : Byte) : Statement (.sendcmd c) :=
  ⟨⟨"SENDCMD", .op, 0x1F, 0x05⟩, by decide, rfl, rfl, by simp [tableBits, encode, OpWord.bare]⟩

theorem wrdigit (d : Digit) (v : Byte) : Statement (.wrdigit d v) :=
  ⟨⟨"WRDIGIT", .op, 0x1F, 0x06⟩, by decide, rfl, rfl, by simp [tableBits, encode, OpWord.bare]⟩

theorem wrrun (d : Digit) (codes : List Byte) : Statement (.wrrun d codes) :=
  ⟨⟨"WRRUN", .op, 0x1F, 0x07⟩, by decide, rfl, rfl, by simp [tableBits, encode, OpWord.bare]⟩

theorem beginDisp (n b : Byte) : Statement (.beginDisp n b) :=
  ⟨⟨"BEGIN", .op, 0x1F, 0x08⟩, by decide, rfl, rfl, by simp [tableBits, encode, OpWord.bare]⟩

theorem dispoff : Statement .dispoff :=
  ⟨⟨"DISPOFF", .op, 0x1F, 0x09⟩, by decide, rfl, rfl, rfl⟩

theorem dispclear : Statement .dispclear :=
  ⟨⟨"DISPCLEAR", .op, 0x1F, 0x0A⟩, by decide, rfl, rfl, rfl⟩

theorem dispbright (l : Byte) : Statement (.dispbright l) :=
  ⟨⟨"DISPBRIGHT", .op, 0x1F, 0x0B⟩, by decide, rfl, rfl, by simp [tableBits, encode, OpWord.bare]⟩

theorem dispchar (d v : Byte) (raw : Bool) : Statement (.dispchar d v raw) :=
  ⟨⟨"DISPCHAR", .op, 0x1F, 0x0C⟩, by decide, rfl, rfl, by simp [tableBits, encode, OpWord.bare]⟩

theorem dispint8 (st v : Byte) (dec : Bool) : Statement (.dispint8 st v dec) :=
  ⟨⟨"DISPINT8", .op, 0x1F, 0x0D⟩, by decide, rfl, rfl, by simp [tableBits, encode, OpWord.bare]⟩

theorem dispint12 (st : Byte) (v : BitVec 16) (dec : Bool) : Statement (.dispint12 st v dec) :=
  ⟨⟨"DISPINT12", .op, 0x1F, 0x0E⟩, by decide, rfl, rfl, by simp [tableBits, encode, OpWord.bare]⟩

theorem dispint16 (st : Byte) (v : BitVec 16) (dec : Bool) : Statement (.dispint16 st v dec) :=
  ⟨⟨"DISPINT16", .op, 0x1F, 0x0F⟩, by decide, rfl, rfl, by simp [tableBits, encode, OpWord.bare]⟩

theorem dispdp (on : Bool) : Statement (.dispdp on) :=
  ⟨⟨"DISPDP", .op, 0x1F, 0x10⟩, by decide, rfl, rfl, by simp [tableBits, encode, OpWord.bare]⟩

theorem disptest (on : Bool) : Statement (.disptest on) :=
  ⟨⟨"DISPTEST", .op, 0x1F, 0x11⟩, by decide, rfl, rfl, by simp [tableBits, encode, OpWord.bare]⟩

end TableRow

end Sys2Proof.Laws
end

