-- ==== Sys2Proof/Laws/Step.lean ====
section
/-! SUPPORT. What a step can be, what a completed instruction can be, and what stopping an operation in the middle leaves. -/

namespace Sys2Proof.Machine

/-- A step finishes an operation, or does nothing, or runs a host operation, or takes a byte on its way to the device and changes
only the wire. -/
theorem step_cases {s t : State} (h : step s = .next t) :
    (∃ i n rest, s.seq = .busy i n rest ∧ t = (runAll rest s).putSeq .idle) ∨
    (s.seq = .idle ∧ t = s) ∨
    (s.seq = .idle ∧ ∃ i w, isHostOp i = true ∧ exec i (s.putPort w) = .next t) ∨
    (s.seq = .idle ∧ (s.wire.cur ≠ [] ∨ s.wire.rx ≠ []) ∧
      ∃ w, t = s.putWire w ∧ (s.wire.dev.mem.wf = true → w.dev.mem.wf = true)) := by
  unfold step at h
  split at h
  · rename_i hs
    injection h with h
    exact .inl ⟨_, _, _, hs, h.symm⟩
  · rename_i hs
    have wires : ∀ (i : Instr) (w : Wire), isHostOp i = false → exec i (s.putWire w) = .next t → w.dev = s.wire.dev →
        ∃ w', t = s.putWire w' ∧ (s.wire.dev.mem.wf = true → w'.dev.mem.wf = true) := by
      intro i w hh hu hm
      cases i <;> first | (cases hh; done) | (injection hu with hu; subst hu)
      · exact ⟨_, rfl, fun h => Wire.command_mem_wf w _ rfl (hm ▸ h)⟩
      · exact ⟨_, rfl, fun h => Wire.command_mem_wf w _ rfl (hm ▸ h)⟩
      · exact ⟨_, rfl, fun h => Wire.command_mem_wf w _ rfl (hm ▸ h)⟩
      · exact ⟨_, rfl, fun h => Wire.command_mem_wf w _ rfl (hm ▸ h)⟩
      · exact ⟨_, rfl, fun h => by simpa [Wire.address, hm] using h⟩
      · exact ⟨_, rfl, fun h => Wire.data_mem_wf w _ (hm ▸ h)⟩
    right
    unfold fetch at h
    split at h
    · rename_i hc
      exact .inr (.inr ⟨hs, .inl (by simp [hc]), wires (.wData _) _ rfl h rfl⟩)
    · split at h
      · rename_i hr
        unfold runFetched at h
        simp only at h
        split at h
        · rename_i i hd
          refine .inr (.inr ⟨hs, .inr (by simp [hr]), wires i _ ?_ h rfl⟩)
          unfold decodeWire at hd
          simp only at hd
          split_ifs at hd <;> cases hd <;> rfl
        · injection h with h
          subst h
          exact .inr (.inr ⟨hs, .inr (by simp [hr]), _, rfl, fun _ => rfl⟩)
      · split at h
        · unfold runFetched at h
          simp only at h
          split at h
          · rename_i w q hp i hd
            refine .inr (.inl ⟨hs, i, _, ?_, h⟩)
            unfold decodeOp decodeRun ifNoStrayBits at hd
            split at hd <;> (try split_ifs at hd) <;> cases hd <;> rfl
          · cases h
        · injection h with h
          exact .inl ⟨hs, h.symm⟩

/-- A completed host operation is one of the raw ones, BEGIN, one that shows slots, DISPBRIGHT, or one that only sends. -/
theorem exec_cases {i : Instr} {s t : State} (hw : s.cfg.wf = true) (hh : isHostOp i = true) (h : exec i s = .next t) :
    (i = .start ∨ i = .stop ∨ (∃ v, i = .wrbyte v) ∨ i = .bitdelay ∨ ∃ v, i = .lookup v) ∨
    (∃ n b, i = .beginDisp n b) ∨
    (keepsShadow i = true ∧ s.ctl.init = true ∧ Shown s t ∧ i ≠ .dispoff ∧ ∀ l, i ≠ .dispbright l) ∨
    (s.ctl.init = true ∧ ∃ l, i = .dispbright l ∧
      Sends (s.putCtl { s.ctl with br := levelBits l }) t [[onByte (levelBits l)]]) ∨
    (s.ctl.init = true ∧
      ((∃ c, i = .sendcmd c) ∨ (∃ d v, i = .wrdigit d v) ∨ (∃ d v, i = .wrrun d v) ∨ i = .dispoff ∨ ∃ on, i = .disptest on) ∧
      ∃ txs, Sends s t txs ∧ (i = .dispoff → txs = [[0x80]])) := by
  have ht := exec_eq_runAll_opList hh h
  have hi : ∀ {r : Result}, whenReady s r = .next t → s.ctl.init = true := by
    intro r hr
    cases hin : s.ctl.init with
    | true => rfl
    | false => rw [whenReady_notReady hin] at hr; cases hr
  cases i with
  | wAuto => cases hh
  | wFixed => cases hh
  | wOff => cases hh
  | wOn l => cases hh
  | wAddr l => cases hh
  | wData l => cases hh
  | start => simp
  | stop => simp
  | wrbyte v => simp
  | bitdelay => simp
  | lookup v => simp
  | sendcmd c => subst ht; exact .inr (.inr (.inr (.inr ⟨hi h, by simp, _, (sends_sendcmd s c).1, nofun⟩)))
  | wrdigit d v => subst ht; exact .inr (.inr (.inr (.inr ⟨hi h, by simp, _, (sends_wrdigit s s.cfg d v).1, nofun⟩)))
  | wrrun d vs =>
    have hv : vs ≠ [] := by
      rintro rfl
      have hin := hi h
      simp [exec, execWrrun, whenReady, whenMode, hin, runFits] at h
      split at h <;> cases h
    subst ht
    exact .inr (.inr (.inr (.inr ⟨hi h, by simp, _, (sends_wrrun s s.cfg d vs hv).1, nofun⟩)))
  | beginDisp n b => exact .inr (.inl ⟨_, _, rfl⟩)
  | dispoff => subst ht; exact .inr (.inr (.inr (.inr ⟨hi h, by simp, _, (sends_sendcmd s dispOff).1, fun _ => rfl⟩)))
  | dispclear => subst ht; exact .inr (.inr (.inl ⟨rfl, hi h, shown_dispclear s, by simp, by simp⟩))
  | dispbright l => subst ht; exact .inr (.inr (.inr (.inl ⟨hi h, l, rfl, (sends_dispbright s l).1⟩)))
  | dispchar d v raw => subst ht; exact .inr (.inr (.inl ⟨rfl, hi h, shown_dispchar s hw d v raw, by simp, by simp⟩))
  | dispint8 st v dec => subst ht; exact .inr (.inr (.inl ⟨rfl, hi h, shown_field s hw 2 (by simp) _ _ _, by simp, by simp⟩))
  | dispint12 st v dec => subst ht; exact .inr (.inr (.inl ⟨rfl, hi h, shown_field s hw 3 (by simp) _ _ _, by simp, by simp⟩))
  | dispint16 st v dec => subst ht; exact .inr (.inr (.inl ⟨rfl, hi h, shown_field s hw 4 (by simp) _ _ _, by simp, by simp⟩))
  | dispdp on => subst ht; exact .inr (.inr (.inl ⟨rfl, hi h, shown_dispdp s on, by simp, by simp⟩))
  | disptest on =>
    subst ht
    refine .inr (.inr (.inr (.inr ⟨hi h, by simp, ?_⟩)))
    cases on with
    | true => exact ⟨_, sends_xfer_point s _ (replicate_ne_nil _ _) s.ctl.qk _, nofun⟩
    | false => exact ⟨_, sends_xfer_point s _ (shownCodes_ne_nil s.ctl.nd s.ctl.dr) s.ctl.qk s.ctl.dr.d3, nofun⟩

/-- The raw engine operations and LOOKUP touch nothing of the controller, and leave an output pin an output. -/
theorem exec_raw {i : Instr} {s t : State} (h : exec i s = .next t)
    (hi : i = .start ∨ i = .stop ∨ (∃ v, i = .wrbyte v) ∨ i = .bitdelay ∨ ∃ v, i = .lookup v) :
    t.ctl = s.ctl ∧ t.cfg = s.cfg ∧ t.seq = s.seq ∧ t.pins.dirr.clk = s.pins.dirr.clk ∧
      (s.pins.dirr.dio = .out → t.pins.dirr.dio = .out) := by
  rcases hi with rfl | rfl | ⟨v, rfl⟩ | rfl | ⟨v, rfl⟩ <;> (injection h with h; subst h)
  · rw [runAll_startList]; simp
  · rw [runAll_stopList]; simp
  · rw [wrbyteList, runAll_append, runAll_byteList]; simp [Micro.run, State.putPort]
  · simp [bitdelayList, Micro.run, State.gpioDly]
  · simp [lookupList, Micro.run]

/-! ## The sequencer -/

/-- After k entries of an operation: the entries run, what is left, and the count of events (R35). -/
theorem ticks_eq (i : Instr) (k : Nat) (s : State) (n : Nat) (rest : List Micro) (h : s.seq = seqAt i n rest)
    (hk : k ≤ rest.length) :
    ∃ n', ticks k s = (runAll (rest.take k) s).putSeq (seqAt i n' (rest.drop k)) ∧
      n' = n + ((ticks k s).trace.length - s.trace.length) ∧ s.trace.length ≤ (ticks k s).trace.length := by
  induction k generalizing s n rest with
  | zero =>
    refine ⟨n, ?_, by simp [ticks], by simp [ticks]⟩
    simp only [ticks, List.take_zero, runAll_nil, List.drop_zero]
    rw [← h]
    rfl
  | succ k ih =>
    cases rest with
    | nil => simp at hk
    | cons m rest =>
      have ht : tick s = (m.run s).putSeq (seqAt i (n + ((m.run s).trace.length - s.trace.length)) rest) := by
        unfold tick
        rw [h]
        rfl
      obtain ⟨n', h1, h2, h3⟩ := ih (tick s) (n + ((m.run s).trace.length - s.trace.length)) rest (by rw [ht]; rfl)
        (by simpa using hk)
      obtain ⟨es, he⟩ := run_trace m s
      have hl : (tick s).trace.length = s.trace.length + es.length := by rw [ht]; simp [he]
      refine ⟨n', ?_, ?_, ?_⟩
      · rw [ticks, h1, ht, runAll_putSeq]
        rfl
      · rw [h2, ticks, he]
        simp
        omega
      · rw [ticks]
        omega

theorem ticks_idle (k : Nat) (s : State) (h : s.seq = .idle) : ticks k s = s := by
  induction k with
  | zero => rfl
  | succ k ih =>
    have ht : tick s = s := by unfold tick; rw [h]
    rw [ticks, ht, ih]

theorem ticks_add (j k : Nat) (s : State) : ticks (j + k) s = ticks k (ticks j s) := by
  induction j generalizing s with
  | zero => simp [ticks]
  | succ j ih =>
    rw [Nat.succ_add]
    exact ih _

end Sys2Proof.Machine
end

