-- ==== Sys2Proof/Laws/Tokens.lean ====
section
/-! SUPPORT. Reading a trace back (R125): what the recogniser makes of each raw operation, of raw operations in any order, and of
transactions sent one after another. -/

namespace Sys2Proof.Machine

/-- Eight bits, least significant first, are the byte they were taken from (R54). -/
theorem bitsValue_bits : ∀ v : Byte,
    BitVec.ofNat 8 (bitsValue [v.getLsbD 0, v.getLsbD 1, v.getLsbD 2, v.getLsbD 3, v.getLsbD 4, v.getLsbD 5, v.getLsbD 6,
      v.getLsbD 7]) = v := by decide

theorem tokens_bit_bit (b c : Bool) (rest : List Event) :
    tokens (bitEvents b ++ (bitEvents c ++ rest)) = .bit b :: tokens (bitEvents c ++ rest) := by
  cases b <;> cases c <;> rfl

theorem tokens_bit_ack (b : Bool) (T : Nat) (a : Level) (rest : List Event) :
    tokens (bitEvents b ++ (ackEvents T a ++ rest)) = .bit b :: tokens (ackEvents T a ++ rest) := by
  cases b <;> cases a <;> rfl

theorem tokens_ack (T : Nat) (a : Level) (rest : List Event) : tokens (ackEvents T a ++ rest) = .ack a :: tokens rest := by
  cases a <;> rfl

theorem tokens_start (rest : List Event) : tokens (startEvents ++ rest) = .start :: tokens rest := rfl

theorem tokens_stop (rest : List Event) : tokens (stopEvents ++ rest) = .stop :: tokens rest := rfl

/-- The tokens of a byte's eight bits. -/
def bitTokens (v : Byte) : List Token :=
  [.bit (v.getLsbD 0), .bit (v.getLsbD 1), .bit (v.getLsbD 2), .bit (v.getLsbD 3), .bit (v.getLsbD 4), .bit (v.getLsbD 5),
    .bit (v.getLsbD 6), .bit (v.getLsbD 7)]

theorem tokens_byte (T : Nat) (v : Byte) (a : Level) (rest : List Event) :
    tokens (byteEvents T v a ++ rest) = bitTokens v ++ .ack a :: tokens rest := by
  simp only [byteEvents, List.range_succ, List.range_zero, List.nil_append, List.flatMap_cons, List.flatMap_nil,
    List.append_nil, List.append_assoc, tokens_bit_bit, tokens_bit_ack, tokens_ack, bitTokens, List.cons_append]

/-- Reading a byte's tokens reads the byte. -/
theorem read_byte (r : Reader) (hr : r.bits = []) (v : Byte) (a : Level) :
    readToken ((bitTokens v).foldl readToken r) (.ack a) = r.byte (v, ackOf a) := by
  have h : (bitTokens v).foldl readToken r =
      { r with bits := [v.getLsbD 0, v.getLsbD 1, v.getLsbD 2, v.getLsbD 3, v.getLsbD 4, v.getLsbD 5, v.getLsbD 6,
        v.getLsbD 7] } := by simp [bitTokens, readToken, hr]
  rw [h]
  simp only [readToken, List.length_cons, List.length_nil, if_pos, bitsValue_bits, Reader.byte]

/-- Reading raw operations in any order: every byte is recorded, and the transactions are the brackets (R125). -/
theorem read_raw (T : Nat) (ops : List RawOp) (r : Reader) (hr : r.bits = []) :
    let q := (tokens (ops.flatMap (RawOp.events T))).foldl readToken r
    q.all = r.all ++ rawBytes ops ∧ q.done = r.done ++ rawBrackets r.bracket ops := by
  induction ops generalizing r with
  | nil => simp [tokens, rawBytes, rawBrackets]
  | cons op ops ih =>
    cases op with
    | start =>
      rw [List.flatMap_cons, RawOp.events, tokens_start, List.foldl_cons]
      exact ih _ rfl
    | stop =>
      rw [List.flatMap_cons, RawOp.events, tokens_stop, List.foldl_cons]
      obtain ⟨h1, h2⟩ := ih (readToken r .stop) rfl
      exact ⟨h1, h2.trans (List.append_assoc _ _ _)⟩
    | byte v a =>
      rw [List.flatMap_cons, RawOp.events, tokens_byte, List.foldl_append, List.foldl_cons, read_byte r hr]
      obtain ⟨h1, h2⟩ := ih (r.byte (v, ackOf a)) rfl
      exact ⟨h1.trans (List.append_assoc _ _ _), h2⟩

/-- A transaction as raw operations. -/
def rawTransaction (bytes : List (Byte × Level)) : List RawOp := .start :: (bytes.map fun x => .byte x.1 x.2) ++ [.stop]

theorem rawTransaction_events (T : Nat) (bytes : List (Byte × Level)) :
    (rawTransaction bytes).flatMap (RawOp.events T) = transactionEvents T bytes := by
  simp [rawTransaction, transactionEvents, RawOp.events, List.flatMap_map, List.flatMap_append]

/-- The bytes of transactions issued one after another, and the transactions themselves. -/
theorem raw_transactions (txs : List (List (Byte × Level))) (b : Option (List (Byte × Bool))) :
    rawBytes (txs.flatMap rawTransaction) = txs.flatten.map (fun x => (x.1, ackOf x.2)) ∧
      rawBrackets b (txs.flatMap rawTransaction) = txs.map fun t => t.map fun x => (x.1, ackOf x.2) := by
  have one : ∀ (bs : List (Byte × Level)) (acc : List (Byte × Bool)) (rest : List RawOp),
      rawBytes ((bs.map fun x => RawOp.byte x.1 x.2) ++ rest) = bs.map (fun x => (x.1, ackOf x.2)) ++ rawBytes rest ∧
      rawBrackets (some acc) ((bs.map fun x => RawOp.byte x.1 x.2) ++ .stop :: rest) =
        (acc ++ bs.map fun x => (x.1, ackOf x.2)) :: rawBrackets none rest := by
    intro bs
    induction bs with
    | nil => intro acc rest; simp [rawBrackets]
    | cons x xs ih =>
      intro acc rest
      refine ⟨by simp [rawBytes, (ih acc rest).1], ?_⟩
      refine (ih (acc ++ [(x.1, ackOf x.2)]) rest).2.trans ?_
      simp
  induction txs generalizing b with
  | nil => exact ⟨rfl, rfl⟩
  | cons t ts ih =>
    have h : (t :: ts).flatMap rawTransaction =
        .start :: ((t.map fun x => RawOp.byte x.1 x.2) ++ .stop :: ts.flatMap rawTransaction) := by simp [rawTransaction]
    rw [h]
    obtain ⟨h1, h2⟩ := one t [] (.stop :: ts.flatMap rawTransaction)
    refine ⟨(h1.trans (congrArg _ (ih none).1)).trans (by simp), ?_⟩
    refine (one t [] (ts.flatMap rawTransaction)).2.trans ?_
    rw [(ih none).2]
    simp

/-- Reading transactions sent one after another. -/
theorem read_transactions (T : Nat) (txs : List (List (Byte × Level))) :
    traceBytes (txs.flatMap (transactionEvents T)) = txs.flatten.map (fun x => (x.1, ackOf x.2)) ∧
      transactions (txs.flatMap (transactionEvents T)) = txs.map fun t => t.map fun x => (x.1, ackOf x.2) := by
  have h : txs.flatMap (transactionEvents T) = (txs.flatMap rawTransaction).flatMap (RawOp.events T) := by
    rw [List.flatMap_assoc]
    exact List.flatMap_congr fun t _ => (rawTransaction_events T t).symm
  obtain ⟨h1, h2⟩ := read_raw T (txs.flatMap rawTransaction) .empty rfl
  obtain ⟨h3, h4⟩ := raw_transactions txs none
  rw [h]
  exact ⟨h1.trans h3, h2.trans h4⟩

/-- Transactions sent one after another are transactions, each byte with some answer. -/
theorem sentEvents_eq_flatMap (T : Nat) (e : Env) (txs : List (List Byte)) :
    ∃ as : List (List (Byte × Level)), sentEvents T e txs = as.flatMap (transactionEvents T) ∧
      as.map (fun t => t.map (fun x => x.1)) = txs := by
  induction txs generalizing e with
  | nil => exact ⟨[], rfl, rfl⟩
  | cons tx txs ih =>
    obtain ⟨as, h1, h2⟩ := ih (e.after tx.length)
    refine ⟨answered e tx :: as, by rw [sentEvents, h1]; rfl, ?_⟩
    rw [List.map_cons, h2]
    congr 1
    exact List.map_fst_zip (by rw [answersFor_length])

/-- Reading what was sent gives the bytes, whatever the answers. -/
theorem byteLists_sentEvents (T : Nat) (e : Env) (txs : List (List Byte)) :
    byteLists (sentEvents T e txs) = txs ∧ (traceBytes (sentEvents T e txs)).map (fun x => x.1) = txs.flatten := by
  obtain ⟨as, h1, h2⟩ := sentEvents_eq_flatMap T e txs
  obtain ⟨h3, h4⟩ := read_transactions T as
  unfold byteLists
  rw [h1, h3, h4, ← h2, List.map_map]
  exact ⟨List.map_congr_left fun t _ => by simp, by simp [List.map_flatten, Function.comp_def]⟩

/-- A byte outside a bracket is read, and is no transaction. -/
theorem read_byteEvents (v : Byte) (T : Nat) (a : Level) :
    byteLists (byteEvents T v a) = [] ∧ traceBytes (byteEvents T v a) = [(v, ackOf a)] := by
  have h : byteEvents T v a = [RawOp.byte v a].flatMap (RawOp.events T) := (List.append_nil _).symm
  obtain ⟨h1, h2⟩ := read_raw T [RawOp.byte v a] .empty rfl
  unfold byteLists
  rw [h]
  exact ⟨congrArg _ h2, h1⟩

end Sys2Proof.Machine
end

