-- ==== Sys2Proof/Tests/Slice0.lean ====
section
/-! SUPPORT. Tests, each about one step on a small state; every expected value is taken from the spec: S1 to S10 and the
vectors V-… of spec/95_test_vectors.md, or the encodings of spec/30_encoding.md. Then, for each obligation with hypotheses, a
witness that meets them. -/

namespace Sys2Proof.Tests

open Sys2Proof Sys2Proof.Machine

/-! ## Small states -/

/-- The suggested glyphs of entries 0 to 15 (R146). -/
def glyphs : List Byte :=
  [0x3F, 0x06, 0x5B, 0x4F, 0x66, 0x6D, 0x7D, 0x07, 0x7F, 0x6F, 0x77, 0x7C, 0x39, 0x5E, 0x79, 0x71]

/-- A legal build. -/
def build (m : AddrMode) (map : Option (Quad Digit)) (test : Bool) : Config where
  mode := m
  digitMap := map
  chartab := glyphs ++ segmentMasks ++ List.replicate 20 0x00
  blankIdx := 42
  tBit := 5
  quirkReq := true
  dpOnCode := 0x80
  hasTest := test
  pinClk := 2
  pinDio := 3

/-- A state between operations: both pins outputs and high, nothing sent, the environment's next answers given. -/
def stateOf (cfg : Config) (init : Bool) (nd : DigitCount) (qk : Bool) (answers : List Level) : State where
  cfg := cfg
  ctl := { init := init, nd := nd, br := 5, qk := qk, dr := ⟨0x11, 0x12, 0x13, 0x00⟩ }
  eng := { sr := 0xA5, bc := 3, ack := false, nak := false, daddr := 1 }
  pins := { lat := ⟨.high, .high⟩, dirr := ⟨.out, .out⟩ }
  seq := .idle
  trace := []
  port := { ops := [], res := 0x99 }
  env := { answers := answers, asked := 0 }
  wire := { bus := .closed, cur := [], rx := [], dev := .unknown }

/-- A responsive device. -/
def acks : List Level := List.replicate 20 .low

def auto (nd : DigitCount) : State := stateOf (build .autoIncrement none true) true nd false acks
def fixed (nd : DigitCount) : State := stateOf (build .fixed none true) true nd false acks
/-- Three digits with the decimal-point quirk. -/
def quirk (m : AddrMode) : State := stateOf (build m none true) true .three true acks
/-- A fixed build with the map of V-A3. -/
def mapped : State := stateOf (build .fixed (some ⟨2, 0, 3, 1⟩) true) true .four false acks
/-- Before `begin`. -/
def fresh : State := stateOf (build .autoIncrement none true) false .one false acks

/-- A part of the state after an instruction. -/
def got {α : Type} (i : Instr) (s : State) (f : State → α) : Option α :=
  match exec i s with
  | .next t => some (f t)
  | .fault _ => none
  | .refused _ => none

/-- Why an instruction is refused. -/
def why (i : Instr) (s : State) : Option Refusal :=
  match exec i s with
  | .next _ => none
  | .fault _ => none
  | .refused r => some r

/-- The transactions an operation sends, as the decoder of R125 reads them from the trace. -/
def sent (i : Instr) (s : State) : Option (List (List Byte)) := got i s fun t => byteLists t.trace

/-- The device once it has taken what was sent. -/
def seen (i : Instr) (s : State) : Option Device := got i s fun t => t.wire.settled

/-! ## WellFormed -/

theorem test_wrrun_empty_is_ill_formed : (Instr.wrrun 0 []).wellFormed = false := by decide
theorem test_wrrun_past_the_last_digit_is_ill_formed : (Instr.wrrun 2 [1, 2, 3]).wellFormed = false := by decide
theorem test_wrrun_to_the_last_digit_is_well_formed : (Instr.wrrun 1 [1, 2, 3]).wellFormed = true := by decide

/-! ## Decoding: words written out from R81 to R85, R90 and R91 -/

/-- A host word: `op_sel`, `op_a`, `op_b`, `op_f`, unused codes 0. -/
def word (sel : BitVec 5) (a : Byte) (b : BitVec 16) (f : Bool) : Encoded := .op ⟨sel, a, b, f, ⟨0, 0, 0, 0⟩⟩

theorem test_decode_wAuto : decode (.wire .first 0b01000000) = .ok .wAuto := by decide
theorem test_decode_wFixed : decode (.wire .first 0b01000100) = .ok .wFixed := by decide
theorem test_decode_wOff : decode (.wire .first 0b10000000) = .ok .wOff := by decide
theorem test_decode_wOn : decode (.wire .first 0b10001110) = .ok (.wOn 6) := by decide
theorem test_decode_wAddr : decode (.wire .first 0b11000010) = .ok (.wAddr 2) := by decide
theorem test_decode_wData : decode (.wire .data 0b10001110) = .ok (.wData 0x8E) := by decide
theorem test_decode_unlisted_first_byte : decode (.wire .first 0b11000100) = .error (.unlistedWireByte 0xC4) := by decide
theorem test_decode_start : decode (word 0b00000 0xFF 0xFFFF true) = .ok .start := by decide
theorem test_decode_stop : decode (word 0b00001 0 0 false) = .ok .stop := by decide
theorem test_decode_wrbyte : decode (word 0b00010 0x44 0 false) = .ok (.wrbyte 0x44) := by decide
theorem test_decode_bitdelay : decode (word 0b00011 0 0 false) = .ok .bitdelay := by decide
theorem test_decode_lookup : decode (word 0b00100 0x2B 0 false) = .ok (.lookup 43) := by decide
theorem test_decode_sendcmd : decode (word 0b00101 0x8A 0 false) = .ok (.sendcmd 0x8A) := by decide
theorem test_decode_wrdigit : decode (word 0b00110 0x03 0x00C9 false) = .ok (.wrdigit 3 0xC9) := by decide
theorem test_decode_wrdigit_digit_4 : decode (word 0b00110 0x04 0x0001 false) = .error .strayOperandBits := by decide
theorem test_decode_wrrun :
    decode (.op ⟨0b00111, 0x01, 0x0002, false, ⟨0x3F, 0x07, 0xEE, 0xEE⟩⟩) = .ok (.wrrun 1 [0x3F, 0x07]) := by decide
theorem test_decode_wrrun_five_codes : decode (word 0b00111 0 5 false) = .error .runTooLong := by decide
theorem test_decode_begin : decode (word 0b01000 0x03 0x0002 false) = .ok (.beginDisp 3 2) := by decide
theorem test_decode_dispoff : decode (word 0b01001 0 0 false) = .ok .dispoff := by decide
theorem test_decode_dispclear : decode (word 0b01010 0 0 false) = .ok .dispclear := by decide
theorem test_decode_dispbright : decode (word 0b01011 0x0F 0 false) = .ok (.dispbright 15) := by decide
theorem test_decode_dispchar : decode (word 0b01100 0x09 0x00FF true) = .ok (.dispchar 9 0xFF true) := by decide
theorem test_decode_dispint8 : decode (word 0b01101 0x00 0x0007 true) = .ok (.dispint8 0 7 true) := by decide
theorem test_decode_dispint8_wide_value : decode (word 0b01101 0x00 0x0100 true) = .error .strayOperandBits := by decide
theorem test_decode_dispint12 : decode (word 0b01110 0x05 0x03E8 true) = .ok (.dispint12 5 1000 true) := by decide
theorem test_decode_dispint16 : decode (word 0b01111 0x00 0xBEEF false) = .ok (.dispint16 0 0xBEEF false) := by decide
theorem test_decode_dispdp : decode (word 0b10000 0 0 true) = .ok (.dispdp true) := by decide
theorem test_decode_disptest : decode (word 0b10001 0 0 false) = .ok (.disptest false) := by decide
theorem test_decode_unassigned : decode (word 0b11111 0 0 false) = .error (.unassignedOpsel 0x1F) := by decide
/-- P4: `(0x0C, 0x09, 0x00FF, 1, -)`, packed. -/
theorem test_table_word : decodeTableWord 40 0x100FF090C = some (.dispchar 9 0xFF true) := by decide
theorem test_table_wire_byte : decodeTableWord 8 0x8A = some (.wOn 2) := by decide

/-! ## The wire bytes (R68, R69) -/

def busy (cur : List Byte) (dev : Device) : State := { auto .one with wire := { bus := .closed, cur := cur, rx := [], dev := dev } }

theorem test_wAuto : got .wAuto (busy [] ⟨some .fixed, some 1, [], none, none⟩) (fun t => t.wire.dev) =
    some ⟨some .autoIncrement, some 1, [], none, none⟩ := by decide
theorem test_wAuto_not_alone : got .wAuto (busy [1] ⟨some .fixed, some 1, [(0, 7)], some true, none⟩) (fun t => t.wire.dev) =
    some ⟨none, none, [], none, none⟩ := by decide
theorem test_wFixed : got .wFixed (busy [] ⟨none, none, [], none, none⟩) (fun t => t.wire.dev.mode) = some (some .fixed) := by
  decide
theorem test_wOff : got .wOff (busy [] ⟨none, none, [], some true, some 3⟩) (fun t => (t.wire.dev.on, t.wire.dev.br)) =
    some (some false, some 3) := by decide
theorem test_wOn : got (.wOn 7) (busy [] ⟨none, none, [], some false, some 3⟩) (fun t => (t.wire.dev.on, t.wire.dev.br)) =
    some (some true, some 7) := by decide
theorem test_wAddr : got (.wAddr 3) (busy [9] ⟨some .fixed, some 0, [], none, none⟩) (fun t => (t.wire.dev.ptr, t.wire.cur)) =
    some (some 3, [9]) := by decide
theorem test_wData_auto_past_address_3 :
    got (.wData 9) (busy [] ⟨some .autoIncrement, some 3, [(1, 5)], none, none⟩) (fun t => (t.wire.dev.mem, t.wire.dev.ptr)) =
      some ([(1, 5), (3, 9)], none) := by decide
theorem test_wData_second_byte_under_fixed :
    got (.wData 9) (busy [4] ⟨some .fixed, some 2, [(1, 5)], none, none⟩) (fun t => (t.wire.dev.mem, t.wire.dev.ptr)) =
      some ([], none) := by decide

/-! ## The protocol engine: V-E1 to V-E8 -/

theorem test_start : got .start fresh (fun t => (t.trace, t.pins.lat)) =
    some ([.wr .clk .high, .wr .dio .high, .wr .dio .low, .wr .clk .low], ⟨.low, .low⟩) := by decide
theorem test_stop : got .stop fresh (fun t => (t.trace, t.pins.lat)) =
    some ([.wr .clk .low, .wr .dio .low, .wr .clk .high, .wr .dio .high], ⟨.high, .high⟩) := by decide
/-- V-E4, row 0x01: the single high bit comes first. -/
theorem test_wrbyte_acknowledged : got (.wrbyte 0x01) fresh (fun t => (t.trace.take 6, t.trace.length, t.port.res, t.eng)) =
    some ([.wr .clk .low, .wr .dio .high, .wr .clk .high, .wr .clk .low, .wr .dio .low, .wr .clk .high], 32, 1,
      { sr := 0, bc := 8, ack := true, nak := false, daddr := 1 }) := by decide
/-- V-E6. -/
theorem test_wrbyte_not_acknowledged :
    got (.wrbyte 0x80) { fresh with env := ⟨[.high], 0⟩ } (fun t => (t.trace.drop 24, t.pins.lat.dio, t.port.res, t.eng.nak)) =
      some ([.dir .dio .inp, .wr .clk .low, .wr .clk .high, .dly 5, .rd .dio .high, .dly 5, .dir .dio .out], .high, 0, true) := by
  decide
/-- R125: a byte outside a bracket is recorded, and is part of no transaction. -/
theorem test_lone_byte_is_recorded : got (.wrbyte 0x44) fresh (fun t => (traceBytes t.trace, transactions t.trace)) =
    some ([(0x44, true)], []) := by decide
theorem test_bitdelay : got .bitdelay fresh (fun t => t.trace) = some [.dly 5] := by decide

/-! ## The encoder: V-L1, V-L2 -/

theorem test_lookup_entry : got (.lookup 15) fresh (fun t => (t.port.res, t.trace)) = some (0x71, []) := by decide
theorem test_lookup_past_the_table : got (.lookup 43) fresh (fun t => t.port.res) = some 0x00 := by decide

/-! ## Addressing: V-E8, V-A1 to V-A8 -/

theorem test_sendcmd : got (.sendcmd 0x8A) (auto .one) (fun t => (byteLists t.trace, t.trace.length)) = some ([[0x8A]], 40) := by
  decide
/-- V-A1: a byte that is no listed command. -/
theorem test_sendcmd_unlisted : seen (.sendcmd 0x00) (auto .one) = some .unknown := by decide
theorem test_wrdigit : got (.wrdigit 1 0x07) (fixed .four) (fun t => (byteLists t.trace, t.trace.length, t.wire.settled.mem)) =
    some ([[0x44], [0xC1, 0x07]], 112, [(1, 0x07)]) := by decide +kernel
theorem test_wrdigit_mapped : got (.wrdigit 3 0x55) mapped (fun t => (byteLists t.trace, t.eng.daddr)) =
    some ([[0x44], [0xC1, 0x55]], 1) := by decide +kernel
theorem test_wrrun : got (.wrrun 1 [1, 2, 3]) (auto .four) (fun t => (byteLists t.trace, t.trace.length, t.eng.daddr)) =
    some ([[0x40], [0xC1, 1, 2, 3]], 176, 0) := by decide +kernel
theorem test_wrrun_out_of_bounds : why (.wrrun 2 [1, 2, 3]) (auto .four) = some .outOfBounds := by decide

/-- V-A8, R59: an XFER that runs past digit 3 names a digit 4, which no operation word holds; digit 3 does not wrap to 0. -/
theorem test_xfer_past_digit_3_under_fixed : xferOps .fixed 3 [0x06, 0x5B] = [.ok (.wrdigit 3 0x06), .error .strayOperandBits] := by
  decide
theorem test_xfer_past_digit_3_under_auto_increment : xferOps .autoIncrement 3 [0x06, 0x5B] = [.ok (.wrrun 3 [0x06, 0x5B])] ∧
    why (.wrrun 3 [0x06, 0x5B]) (auto .four) = some .outOfBounds := by decide

/-! ## The display operations: V-C1 to V-C11 -/

/-- V-C2. -/
theorem test_begin_quirk : got (.beginDisp 3 0) fresh (fun t => (byteLists t.trace, t.trace.length, t.ctl.qk, t.eng.daddr)) =
    some ([[0x40], [0xC0, 0, 0, 0], [0x40], [0xC3, 0], [0x88]], 330, true, 0) := by decide +kernel
/-- V-C1, row n = 5. -/
theorem test_begin_out_of_range : got (.beginDisp 5 8) fresh (fun t => (byteLists t.trace, t.ctl.nd, t.ctl.br)) =
    some ([[0x40], [0xC0, 0], [0x88]], .one, 0) := by decide +kernel
/-- V-C4. -/
theorem test_dispoff : got .dispoff (auto .two) (fun t => (byteLists t.trace, t.ctl.dr, t.wire.settled.on)) =
    some ([[0x80]], ⟨0x11, 0x12, 0x13, 0x00⟩, some false) := by decide
/-- V-C10. -/
theorem test_dispclear : got .dispclear (auto .two) (fun t => (byteLists t.trace, t.ctl.dr)) =
    some ([[0x40], [0xC0, 0x00, 0x00]], ⟨0x00, 0x00, 0x13, 0x00⟩) := by decide +kernel
/-- V-C3. -/
theorem test_dispbright : got (.dispbright 9) (auto .two) (fun t => (byteLists t.trace, t.ctl.br)) = some ([[0x89]], 1) := by
  decide
/-- V-C5. -/
theorem test_dispchar_clamped_raw : got (.dispchar 7 0xC9 true) (auto .two) (fun t => (byteLists t.trace, t.ctl.dr)) =
    some ([[0x40], [0xC1, 0x49]], ⟨0x11, 0x49, 0x13, 0x00⟩) := by decide +kernel
theorem test_dispchar_index_past_the_table : sent (.dispchar 1 0x80 false) (auto .two) = some [[0x40], [0xC1, 0x00]] := by
  decide +kernel
/-- V-C6. -/
theorem test_dispint8_decimal : sent (.dispint8 200 255 true) (auto .four) = some [[0x40], [0xC2, 0x6F, 0x6F]] := by
  decide +kernel
theorem test_dispint8_hexadecimal : sent (.dispint8 0 100 false) (auto .four) = some [[0x40], [0xC0, 0x7D, 0x66]] := by
  decide +kernel
/-- V-C7. -/
theorem test_dispint12_decimal : sent (.dispint12 1 345 true) (auto .four) = some [[0x40], [0xC1, 0x4F, 0x66, 0x6D]] := by
  decide +kernel
theorem test_dispint12_hexadecimal_saturates :
    got (.dispint12 0 0x1234 false) (auto .four) (fun t => (byteLists t.trace, t.ctl.dr.d3)) =
      some ([[0x40], [0xC0, 0x71, 0x71, 0x71]], 0x00) := by decide +kernel
/-- V-C8. -/
theorem test_dispint16_decimal : sent (.dispint16 2 1234 true) (auto .four) = some [[0x40], [0xC0, 0x06, 0x5B, 0x4F, 0x66]] := by
  decide +kernel
theorem test_dispint16_too_few_digits : exec (.dispint16 0 1234 true) (auto .three) = .next (auto .three) := rfl
/-- V-C9. -/
theorem test_dispdp : got (.dispdp true) (quirk .autoIncrement) (fun t => (byteLists t.trace, t.ctl.dr.d3)) =
    some ([[0x40], [0xC3, 0x80]], 0x80) := by decide +kernel
theorem test_dispdp_no_quirk : exec (.dispdp true) (auto .three) = .next (auto .three) := rfl
/-- V-C11. -/
theorem test_disptest_on : got (.disptest true) (auto .two) (fun t => (byteLists t.trace, t.ctl.dr.d0, t.wire.settled.mem)) =
    some ([[0x40], [0xC0, 0x7F, 0x7F]], 0x11, [(0, 0x7F), (1, 0x7F)]) := by decide +kernel
theorem test_disptest_off : sent (.disptest false) (quirk .fixed) =
    some [[0x44], [0xC0, 0x11], [0x44], [0xC1, 0x12], [0x44], [0xC2, 0x13], [0x44], [0xC3, 0x00]] := by decide +kernel

/-- R38, R212: with the data pin an input the bits do not reach the wire, so the byte joins no transaction (log entry 8). -/
theorem test_wrbyte_with_dio_input : got (.wrbyte 0x44)
    { fresh with
      pins := ⟨⟨.high, .high⟩, ⟨.out, .inp⟩⟩
      wire := ⟨.opened [], [], [], ⟨some .fixed, some 1, [(1, 5)], some true, some 2⟩⟩ } (fun t => t.wire) =
    some ⟨.closed, [], [], ⟨none, none, [], none, none⟩⟩ := by decide
/-- R230: DISPBRIGHT, another agent's call when its START has just been emitted, then the rest: the device stays unknown. -/
theorem test_foreign_call_after_start : (ticks 6 (launch (.dispbright 3) (auto .one))).trace = startEvents ∧
    (match step ((ticks 6 (launch (.dispbright 3) (auto .one))).foreign (.rd .dio .low)) with
      | .next t => some t.wire.settled
      | .fault _ => none
      | .refused _ => none) = some .unknown := by decide

/-! ## Witnesses: for each obligation with hypotheses, a concrete state and operands that meet all of them, at the bounds of
each clause -/

/-- The state an instruction leads to. -/
def ran (i : Instr) (s : State) : State :=
  match exec i s with
  | .next t => t
  | .fault _ => s
  | .refused _ => s

/-- An environment whose first answer is no acknowledgement. -/
def deaf (s : State) : State := { s with env := ⟨.high :: acks, 0⟩ }

/-- A state whose device shows what `DR` holds. -/
def shown (s : State) (m : AddrMode) : State :=
  { s with wire := { s.wire with dev := ⟨some m, none, [(0, 0x11), (1, 0x12), (2, 0x13), (3, 0x00)], some true, some 5⟩ } }

/-- A state with operation words on the ports. -/
def asking (ws : List OpWord) : State := { fresh with port := { ops := ws, res := 0 } }

/-- A state with a transaction on its way to the device. -/
def arriving (cur : List Byte) (rx : List (Byte × List Byte)) : State :=
  { fresh with wire := { bus := .closed, cur := cur, rx := rx, dev := .unknown } }

/-- A state in the middle of a transaction, the bytes so far given. -/
def amid (bytes : List (Byte × Bool)) : State := { fresh with wire := { fresh.wire with bus := .opened bytes } }

/-- A state in which the clock pin is an input. -/
def undriven (s : State) : State := { s with pins := { s.pins with dirr := ⟨.inp, .out⟩ } }

/-- A state in which the data pin alone is an input. -/
def halfDriven (s : State) : State := { s with pins := { s.pins with dirr := ⟨.out, .inp⟩ } }

theorem inv_quirk (m : AddrMode) : Inv (quirk m) := by
  cases m <;> exact ⟨by decide, rfl, by decide, by decide, by decide, fun _ _ => .inr rfl, rfl, nofun⟩
theorem inv_shown_quirk (m : AddrMode) : Inv (shown (quirk m) m) := by
  cases m <;> exact ⟨by decide, rfl, by decide, by decide, by decide, fun _ _ => .inr rfl, by decide, nofun⟩
theorem inv_shown_two : Inv (shown (auto .two) .autoIncrement) :=
  ⟨by decide, rfl, by decide, nofun, by decide, nofun, by decide, nofun⟩
/-- Before `begin`, both pins inputs and nothing yet sent. -/
def dark : State := { fresh with pins := ⟨⟨.low, .low⟩, ⟨.inp, .inp⟩⟩ }
theorem inv_dark : Inv dark := ⟨by decide, rfl, nofun, nofun, nofun, nofun, rfl, fun _ => ⟨rfl, rfl, rfl⟩⟩
theorem shadow_quirk (m : AddrMode) : ShadowAgrees (shown (quirk m) m) := by cases m <;> exact ⟨by decide, by decide⟩

theorem witness_StepRunsThePresentedOperation_word : (asking [.bare 0]).seq = .idle ∧ (asking [.bare 0]).wire.cur = [] ∧
    (asking [.bare 0]).wire.rx = [] ∧ (asking [.bare 0]).port.ops = [.bare 0] ∧ decode (.op (.bare 0)) = .ok .start := by decide
theorem witness_StepRunsThePresentedOperation_bad_word : (asking [.bare 0x12]).port.ops = [.bare 0x12] ∧
    decode (.op (.bare 0x12)) = .error (.unassignedOpsel 0x12) := by decide
theorem witness_StepRunsThePresentedOperation_none : fresh.seq = .idle ∧ fresh.port.ops = [] := by decide
theorem witness_StepRunsTheNextWireByte_first : (arriving [] [(0xC3, [7])]).seq = .idle ∧ (arriving [] [(0xC3, [7])]).wire.cur = [] ∧
    (arriving [] [(0xC3, [7])]).wire.rx = [(0xC3, [7])] ∧ decode (.wire .first 0xC3) = .ok (.wAddr 3) := by decide
theorem witness_StepRunsTheNextWireByte_unlisted : (arriving [] [(0x81, [7])]).seq = .idle ∧
    (arriving [] [(0x81, [7])]).wire.cur = [] ∧ (arriving [] [(0x81, [7])]).wire.rx = [(0x81, [7])] ∧
    decode (.wire .first 0x81) = .error (.unlistedWireByte 0x81) := by decide
theorem witness_StepRunsTheNextWireByte_data : (arriving [7] []).seq = .idle ∧ (arriving [7] []).wire.cur = [7] := by decide
theorem witness_DecodeOfEncodeIsTheInstruction : ∀ i ∈ [Instr.wrrun 0 [1, 2, 3, 4], .wrrun 3 [1], .wData 0xFF, .dispint16 255 0xFFFF true],
    i.wellFormed = true := by decide
theorem witness_FirstBytesOutsideTheTableAreRejected : decode (.wire .first 0x90) = .error (.unlistedWireByte 0x90) ∧
    decode (.wire .first 0x87) = .error (.unlistedWireByte 0x87) ∧ decode (.wire .first 0xBF) = .error (.unlistedWireByte 0xBF) := by
  decide
theorem witness_RawFramingOpensAndClosesTransactions_start : fresh.pins.driven = true ∧ fresh.wire.bus = .closed ∧
    (amid [(0x44, true)]).pins.driven = true ∧ (amid [(0x44, true)]).wire.bus = .opened [(0x44, true)] ∧
    (undriven fresh).pins.driven = false ∧ (undriven (amid [])).wire.bus = .opened [] := by decide
theorem witness_RawFramingOpensAndClosesTransactions_byte : (amid []).pins.driven = true ∧ (amid []).wire.bus = .opened [] ∧
    (undriven (amid [])).pins.driven = false ∧ (halfDriven (amid [])).pins.driven = false ∧ (halfDriven (amid [])).pins.dirr.clk = .out ∧
    (halfDriven (amid [])).wire.bus = .opened [] ∧ fresh.wire.bus = .closed := by decide
theorem witness_RawFramingOpensAndClosesTransactions_stop : (amid [(0xC3, true), (9, true)]).pins.driven = true ∧
    (amid [(0xC3, true), (9, true)]).wire.bus = .opened [(0xC3, true), (9, true)] ∧
    (∀ x ∈ [((0xC3 : Byte), true), (9, true)], x.2 = true) ∧
    (amid [(0xC3, true), (9, false)]).wire.bus = .opened [(0xC3, true), (9, false)] ∧
    ((9 : Byte), false) ∈ [((0xC3 : Byte), true), (9, false)] ∧ (amid []).wire.bus = .opened [] :=
  ⟨by decide, by decide, by simp, by decide, by simp, by decide⟩
theorem witness_DataLineChangesOnlyWhileClockIsLow : exec (.wrbyte 0x80) fresh = .next (ran (.wrbyte 0x80) fresh) := rfl
theorem witness_LookupAnswersEntryOrBlank : (build .fixed none true).chartab[42]? = some 0x00 ∧ (43 : Byte).toNat = 43 := by
  decide
theorem witness_LookupCodeHasBitSevenClear : fresh.cfg.wf = true ∧ exec (.lookup 0) fresh = .next (ran (.lookup 0) fresh) := ⟨by decide, rfl⟩
theorem witness_SendcmdIsAOneByteTransaction : (auto .one).ctl.init = true := rfl
theorem witness_WrdigitSendsModeThenAddressedCode : mapped.ctl.init = true ∧ mapped.cfg.mode = .fixed := by decide
theorem witness_WrrunSendsModeThenBurst : (auto .one).ctl.init = true ∧ (auto .one).cfg.mode = .autoIncrement ∧ (0 : Digit).val + 4 ≤ 4 ∧
    (3 : Digit).val + 1 ≤ 4 := by decide
theorem witness_MultiplexerIsAPermutation : (build .autoIncrement none true).wf = true ∧ (build .fixed none true).wf = true ∧
    mapped.cfg.wf = true ∧ mapped.cfg.digitMap = some ⟨2, 0, 3, 1⟩ := by decide
theorem witness_XferEqualsItsExpansion_past_the_last_digit : (auto .one).ctl.init = true ∧ (auto .one).cfg.mode = .autoIncrement ∧
    (fixed .one).ctl.init = true ∧ (fixed .one).cfg.mode = .fixed ∧ 4 < 3 + [(1 : Byte), 2].length ∧ 4 < 4 + [(1 : Byte)].length := by
  decide
theorem witness_XferEqualsItsExpansion : ∀ s ∈ [auto .one, fixed .one, mapped], s.ctl.init = true ∧ (0 : Digit).val + [1, 2, 3, 4].length ≤ 4 ∧
    (3 : Digit).val + [1].length ≤ 4 := by decide
theorem witness_LaunchPremisesHoldAfterBegin : ∀ n ∈ [(0 : Byte), 1, 3, 4, 5], fresh.seq = .idle ∧
    exec (.beginDisp n 255) fresh = .next (ran (.beginDisp n 255) fresh) := fun _ _ => ⟨rfl, rfl⟩
theorem witness_LaunchPremisesHoldAfterBegin_both_modes : (quirk .fixed).seq = .idle ∧ (quirk .fixed).cfg.mode = .fixed ∧
    quirkFlag (quirk .fixed).cfg (requestedCount 3) = true ∧ quirkFlag (quirk .fixed).cfg (requestedCount 4) = false ∧
    (quirk .autoIncrement).cfg.mode = .autoIncrement := by decide
theorem witness_DispoffSendsTheOffCommand : (fixed .four).ctl.init = true := rfl
theorem witness_DispclearBlanksTheConfiguredDigits : (fixed .two).ctl.init = true ∧ (fixed .two).ctl.qk = false ∧ (quirk .fixed).ctl.init = true ∧
    (quirk .fixed).ctl.qk = true := by decide
theorem witness_DispbrightStoresAndSendsTheMaskedLevel : (fixed .one).ctl.init = true := rfl
theorem witness_DispcharShowsOneClampedDigit : (fixed .two).ctl.init = true ∧ (1 : Digit).val = min (255 : Byte).toNat ((fixed .two).ctl.nd.toNat - 1) ∧
    (0 : Digit).val = min (0 : Byte).toNat ((fixed .two).ctl.nd.toNat - 1) := by decide
theorem witness_Dispint8ShowsTwoDigits : (auto .two).ctl.init = true ∧ 2 ≤ (auto .two).ctl.nd.toNat ∧
    (0 : Digit).val = min (9 : Byte).toNat ((auto .two).ctl.nd.toNat - 2) ∧
    (2 : Digit).val = min (9 : Byte).toNat ((auto .four).ctl.nd.toNat - 2) ∧ (auto .one).ctl.init = true ∧
    (auto .one).ctl.nd.toNat < 2 := by decide
theorem witness_Dispint12ShowsThreeDigits : (auto .three).ctl.init = true ∧ 3 ≤ (auto .three).ctl.nd.toNat ∧
    (0 : Digit).val = min (9 : Byte).toNat ((auto .three).ctl.nd.toNat - 3) ∧
    (1 : Digit).val = min (1 : Byte).toNat ((auto .four).ctl.nd.toNat - 3) ∧ (auto .two).ctl.init = true ∧
    (auto .two).ctl.nd.toNat < 3 := by decide
theorem witness_Dispint16ShowsFourDigits : (fixed .four).ctl.init = true ∧ (fixed .four).ctl.nd.toNat = 4 ∧
    (auto .three).ctl.init = true ∧ (auto .three).ctl.nd.toNat < 4 := by decide
theorem witness_InsufficientConfigurationIsASilentNoOp : (auto .one).ctl.init = true ∧ (auto .one).ctl.nd.toNat < 2 ∧ (auto .two).ctl.init = true ∧
    (auto .two).ctl.nd.toNat < 3 ∧ (auto .three).ctl.init = true ∧ (auto .three).ctl.nd.toNat < 4 ∧ (auto .three).ctl.qk = false := by
  decide
theorem witness_DispdpWritesTheQuirkDigit : (quirk .autoIncrement).ctl.init = true ∧
    (quirk .autoIncrement).ctl.qk = true ∧ (auto .three).ctl.init = true ∧ (auto .three).ctl.qk = false := by decide
theorem witness_DisptestSendsAllOnOrTheShadow : (quirk .fixed).ctl.init = true ∧ (quirk .fixed).cfg.hasTest = true := by decide
theorem witness_ValuesAboveTheLimitRenderAsTheLimit : 99 ≤ (100 : Byte).toNat ∧ 999 ≤ (1000 : BitVec 16).toNat ∧ 0xFFF ≤ (0x1000 : BitVec 16).toNat ∧
    9999 ≤ (10000 : BitVec 16).toNat := by decide
theorem witness_DisplayOperationsBeforeBeginAreRefused : ∀ i ∈ [Instr.sendcmd 0x80, .wrdigit 0 1, .wrrun 0 [1], .dispoff, .disptest true],
    fresh.ctl.init = false ∧ isHostOp i = true ∧
      i.mnemonic ∉ ["START", "STOP", "WRBYTE", "BITDELAY", "LOOKUP", "BEGIN"] := by decide
theorem witness_ForeignModeBoundsAndAbsentTestAreRefused : (auto .one).ctl.init = true ∧ (auto .one).cfg.mode = .autoIncrement ∧ (fixed .one).ctl.init = true ∧
    (fixed .one).cfg.mode = .fixed ∧ 4 < (3 : Digit).val + [(1 : Byte), 2].length ∧
    (stateOf (build .fixed none false) true .one false []).ctl.init = true ∧
    (stateOf (build .fixed none false) true .one false []).cfg.hasTest = false := by decide
theorem witness_EveryInstructionCompletesWhenReady : ((fixed .one).ctl.init = true ∧ (Instr.wrdigit 3 0xFF).wellFormed = true ∧
    (fixed .one).cfg.mode = .fixed) ∧ ((auto .one).ctl.init = true ∧ (Instr.wrrun 0 [1, 2, 3, 4]).wellFormed = true ∧
    (auto .one).cfg.mode = .autoIncrement) ∧ ((auto .one).cfg.hasTest = true ∧ (Instr.disptest true).wellFormed = true) := by
  decide
theorem witness_WireCommandsAndAddressesSetTheDevice : (arriving [] []).wire.cur = [] ∧ (arriving [1] []).wire.cur ≠ [] := by decide
theorem witness_WireDataIsStoredAtThePointer : (busy [] ⟨some .autoIncrement, some 2, [], none, none⟩).wire.dev.ptr = some 2 ∧
    (busy [] ⟨some .autoIncrement, some 3, [], none, none⟩).wire.dev.ptr = some 3 ∧
    (busy [] ⟨some .fixed, some 3, [], none, none⟩).wire.cur = [] ∧
    (busy [1] ⟨some .fixed, some 3, [], none, none⟩).wire.cur ≠ [] ∧
    (busy [] ⟨some .fixed, none, [], none, none⟩).wire.dev.ptr = none ∧
    (busy [] ⟨none, some 0, [], none, none⟩).wire.dev.mode = none := by decide
theorem witness_DeviceStepsRefineWholeTransactions : (arriving [7] []).seq = .idle ∧ (arriving [7] []).wire.cur ≠ [] ∧
    (arriving [] [(0x00, [7])]).seq = .idle ∧ (arriving [] [(0x00, [7])]).wire.rx ≠ [] := by decide
theorem witness_OnlyCleanTransactionsReachTheDevice_acknowledged : BusIdle (auto .one) ∧ Sends (auto .one) (ran (.sendcmd 0x80) (auto .one)) [[0x80]] ∧
    .high ∉ (auto .one).env.answersFor 1 := ⟨⟨rfl, rfl⟩, (sends_sendcmd (auto .one) 0x80).1, by decide⟩
theorem witness_OnlyCleanTransactionsReachTheDevice_not_acknowledged : BusIdle (deaf (auto .one)) ∧
    Sends (deaf (auto .one)) (ran (.sendcmd 0x80) (deaf (auto .one))) [[0x80]] ∧ .high ∈ (deaf (auto .one)).env.answersFor 1 :=
  ⟨⟨rfl, rfl⟩, (sends_sendcmd (deaf (auto .one)) 0x80).1, by decide⟩
theorem witness_WrdigitStoresAtThePhysicalIndex : mapped.ctl.init = true ∧ mapped.cfg.mode = .fixed ∧ BusIdle mapped ∧ Responsive 3 mapped :=
  ⟨rfl, rfl, ⟨rfl, rfl⟩, List.replicate 17 .low, rfl⟩
theorem witness_WrrunStoresAtConsecutiveAddresses : (auto .four).ctl.init = true ∧ (auto .four).cfg.mode = .autoIncrement ∧ BusIdle (auto .four) ∧
    (0 : Digit).val + 4 ≤ 4 ∧ Responsive (4 + 2) (auto .four) := ⟨rfl, rfl, ⟨rfl, rfl⟩, by decide, List.replicate 14 .low, rfl⟩
theorem witness_EveryStepKeepsTheInvariant : Inv { quirk .fixed with port := ⟨[{ OpWord.bare 0x10 with f := true }], 0⟩ } ∧
    ∃ t, step { quirk .fixed with port := ⟨[{ OpWord.bare 0x10 with f := true }], 0⟩ } = .next t :=
  ⟨⟨by decide, rfl, by decide, by decide, by decide, fun _ _ => .inr rfl, rfl, nofun⟩, _, rfl⟩
theorem witness_EveryStepKeepsTheMemoryCanonical : (busy [9] ⟨some .autoIncrement, some 0, [(1, 7)], none, none⟩).wire.dev.mem.wf = true ∧
    ∃ t, step (busy [9] ⟨some .autoIncrement, some 0, [(1, 7)], none, none⟩) = .next t := ⟨by decide, _, rfl⟩
theorem witness_ParametersAndReadinessPersist : ∃ t, step { auto .one with port := ⟨[.bare 0x09], 0⟩ } = .next t := ⟨_, rfl⟩
theorem witness_OnlyTheirWritersWriteConfigurationAndResult : (Instr.dispclear).mnemonic ≠ "BEGIN" ∧
    (Instr.dispclear).mnemonic ≠ "DISPBRIGHT" ∧ (Instr.dispclear).mnemonic ∉ ["LOOKUP", "WRBYTE"] ∧
    ∃ t, exec .dispclear (auto .one) = .next t := ⟨by decide, by decide, by decide, _, rfl⟩
theorem witness_OnlyTheirWritersWriteConfigurationAndResult_wrbyte : (Instr.wrbyte 1).mnemonic = "WRBYTE" ∧
    ∃ t, exec (.wrbyte 1) (deaf fresh) = .next t := ⟨rfl, _, rfl⟩
theorem witness_OnlyTheListedOperationsWriteTheShadow :
    (Instr.disptest true).mnemonic ∉ ["BEGIN", "DISPCLEAR", "DISPCHAR", "DISPINT8", "DISPINT12", "DISPINT16", "DISPDP"] ∧
    ∃ t, exec (.disptest true) (auto .one) = .next t := ⟨by decide, _, rfl⟩
theorem witness_TraceOnlyGrows : ∃ t, step (asking [.bare 0x03]) = .next t := ⟨_, rfl⟩
theorem witness_NakIsSticky_set : { fresh with eng := { fresh.eng with nak := true } }.eng.nak = true ∧
    ∃ t, exec (.wrbyte 1) { fresh with eng := { fresh.eng with nak := true } } = .next t := ⟨rfl, _, rfl⟩
theorem witness_NakIsSticky_clear : (deaf fresh).eng.nak = false ∧ ∃ t, exec (.wrbyte 1) (deaf fresh) = .next t := ⟨rfl, _, rfl⟩
theorem witness_NakIsSticky_begin : ∃ t, exec (.beginDisp 1 0) (deaf fresh) = .next t := ⟨_, rfl⟩
theorem witness_AnswersNeverChangeWhatIsSent : (∃ t, exec (.wrdigit 1 7) (fixed .two) = .next t) ∧
    ∃ t, exec (.wrdigit 1 7) { fixed .two with env := ⟨[.high, .low, .high], 9⟩ } = .next t := ⟨⟨_, rfl⟩, _, rfl⟩
theorem witness_BeginEstablishesShadowAgreement : fresh.cfg.wf = true ∧
    exec (.beginDisp 3 7) fresh = .next (ran (.beginDisp 3 7) fresh) ∧ (ran (.beginDisp 3 7) fresh).eng.nak = false :=
  ⟨by decide, rfl, by decide +kernel⟩
theorem witness_BeginEstablishesShadowAgreement_open : (amid [(0x44, true)]).cfg.wf = true ∧
    exec (.beginDisp 4 0) (amid [(0x44, true)]) = .next (ran (.beginDisp 4 0) (amid [(0x44, true)])) ∧
    (ran (.beginDisp 4 0) (amid [(0x44, true)])).eng.nak = false := ⟨by decide, rfl, by decide +kernel⟩
theorem witness_DisplayOperationsKeepShadowAgreement : Inv (shown (quirk .fixed) .fixed) ∧ ShadowAgrees (shown (quirk .fixed) .fixed) ∧
    (shown (quirk .fixed) .fixed).ctl.init = true ∧ (shown (quirk .fixed) .fixed).wire.bus = .closed ∧
    keepsShadow (.dispdp true) = true ∧
    exec (.dispdp true) (shown (quirk .fixed) .fixed) = .next (ran (.dispdp true) (shown (quirk .fixed) .fixed)) ∧
    (ran (.dispdp true) (shown (quirk .fixed) .fixed)).eng.nak = false :=
  ⟨inv_shown_quirk .fixed, shadow_quirk .fixed, rfl, rfl, rfl, rfl, by decide +kernel⟩
theorem witness_TestOffRestoresShadowAgreement : Inv (quirk .autoIncrement) ∧ (quirk .autoIncrement).ctl.init = true ∧
    (quirk .autoIncrement).wire.bus = .closed ∧
    exec (.disptest false) (quirk .autoIncrement) = .next (ran (.disptest false) (quirk .autoIncrement)) ∧
    (ran (.disptest false) (quirk .autoIncrement)).eng.nak = false := ⟨inv_quirk _, rfl, rfl, rfl, by decide +kernel⟩
theorem witness_StaleDigitsAreNeverWritten : Inv (shown (auto .two) .autoIncrement) ∧
    (shown (auto .two) .autoIncrement).ctl.init = true ∧ (shown (auto .two) .autoIncrement).wire.bus = .closed ∧
    (Instr.disptest true).mnemonic = "DISPTEST" ∧ keepsShadow (.dispchar 1 8 false) = true ∧
    exec (.disptest true) (shown (auto .two) .autoIncrement) = .next (ran (.disptest true) (shown (auto .two) .autoIncrement)) ∧
    (ran (.disptest true) (shown (auto .two) .autoIncrement)).eng.nak = false ∧
    exec (.dispchar 1 8 false) (shown (auto .two) .autoIncrement) =
      .next (ran (.dispchar 1 8 false) (shown (auto .two) .autoIncrement)) ∧
    (ran (.dispchar 1 8 false) (shown (auto .two) .autoIncrement)).eng.nak = false ∧
    (ran (.dispchar 1 8 false) (shown (auto .two) .autoIncrement)).ctl.nd.toNat ≤ (2 : Digit).val ∧
    (ran (.dispchar 1 8 false) (shown (auto .two) .autoIncrement)).ctl.qk = false :=
  ⟨inv_shown_two, rfl, rfl, rfl, rfl, rfl, by decide +kernel, rfl, by decide +kernel, by decide +kernel, by decide +kernel⟩
theorem witness_StaleDigitsAreNeverWritten_begin : ∀ s ∈ [shown (auto .two) .autoIncrement, dark], Inv s ∧ s.wire.bus = .closed ∧
    (Instr.beginDisp 1 0).mnemonic = "BEGIN" ∧ exec (.beginDisp 1 0) s = .next (ran (.beginDisp 1 0) s) ∧
    (ran (.beginDisp 1 0) s).eng.nak = false ∧ (ran (.beginDisp 1 0) s).ctl.nd.toNat ≤ (1 : Digit).val ∧
    (ran (.beginDisp 1 0) s).ctl.qk = false := by
  intro s hs
  simp only [List.mem_cons, List.not_mem_nil, or_false] at hs
  rcases hs with rfl | rfl
  · exact ⟨inv_shown_two, rfl, rfl, rfl, by decide +kernel, by decide +kernel, by decide +kernel⟩
  · exact ⟨inv_dark, rfl, rfl, rfl, by decide +kernel, by decide +kernel, by decide +kernel⟩
theorem witness_StoppedOperationFinishesTheSame : fresh.seq = .idle ∧ isHostOp .start = true ∧
    exec .start fresh = .next (ran .start fresh) ∧ 4 < (opList .start fresh).length := ⟨rfl, rfl, rfl, by decide⟩
theorem witness_SequencerCountsEmittedEvents : fresh.seq = .idle ∧
    (ticks 3 (launch .start fresh)).seq = .busy .start 2 [.wr .dio .low, .wr .clk .low] := by decide
theorem witness_AnotherPinUserLosesTheDevice : Event.wr .dio .high ∈ [Event.dir .dio .inp, .wr .dio .high, .rd .dio .high] ∧
    (auto .one).seq = .idle ∧ ∃ rest, (ticks 2 (launch (.sendcmd 0x80) (auto .one))).seq = .busy (.sendcmd 0x80) 1 rest :=
  ⟨by decide, rfl, _, rfl⟩

end Sys2Proof.Tests
end

section
/-! The address multiplexer (R34, R63): what `phys` is for each mode and map, and that a legal build's map, having four
distinct entries, sends no two digits to one index. -/

namespace Sys2Proof.Machine

/-! ## The four digits as a list -/

/-- A digit of a quad is the entry of its list at that digit. -/
theorem Quad.get_eq_toList_get {α : Type} (q : Quad α) (i : Digit) : q.get i = q.toList.get i := by
  fin_cases i <;> rfl

/-- Four distinct values are at four distinct digits. -/
theorem Quad.get_injective {α : Type} {q : Quad α} (h : q.toList.Nodup) : Function.Injective q.get := by
  intro i j hij
  rw [Quad.get_eq_toList_get, Quad.get_eq_toList_get] at hij
  exact List.nodup_iff_injective_get.mp h hij

/-! ## The map of a legal build -/

/-- A legal build has a legal map (R6). -/
theorem Config.mapWf_of_wf {cfg : Config} (h : cfg.wf = true) : cfg.mapWf = true := by
  simp only [Config.wf, Bool.and_eq_true] at h
  obtain ⟨⟨⟨⟨hmap, -⟩, -⟩, -⟩, -⟩ := h
  exact hmap

/-- A legal map is present only under Fixed, and its four entries are distinct (R63). -/
theorem Config.mapWf_some {cfg : Config} {m : Quad Digit} (h : cfg.mapWf = true) (hm : cfg.digitMap = some m) :
    cfg.mode = .fixed ∧ m.toList.Nodup := by
  simpa [Config.mapWf, hm] using h

/-! ## The multiplexer -/

theorem phys_autoIncrement {cfg : Config} (h : cfg.mode = .autoIncrement) (d : Digit) : phys cfg d = d := by
  simp [phys, h]

theorem phys_noMap {cfg : Config} (h : cfg.digitMap = none) (d : Digit) : phys cfg d = d := by
  cases hmode : cfg.mode <;> simp [phys, h, hmode]

theorem phys_map {cfg : Config} {m : Quad Digit} (h : cfg.mode = .fixed) (hm : cfg.digitMap = some m) (d : Digit) :
    phys cfg d = m.get d := by
  simp [phys, h, hm]

/-- No two logical digits share a physical index: without a map `phys` is the identity, and a legal map has distinct entries
(R34, R63). -/
theorem phys_injective {cfg : Config} (h : cfg.mapWf = true) : Function.Injective (phys cfg) := by
  intro d e hde
  cases hm : cfg.digitMap with
  | none => rwa [phys_noMap hm, phys_noMap hm] at hde
  | some m =>
    obtain ⟨hfixed, hnodup⟩ := Config.mapWf_some h hm
    rw [phys_map hfixed hm, phys_map hfixed hm] at hde
    exact Quad.get_injective hnodup hde

/-- Settles O21: injectivity is that of a legal map, and each clause on `phys` is its value in that case. -/
theorem multiplexerIsAPermutation : Obligations.MultiplexerIsAPermutation := by
  intro cfg hwf
  refine ⟨fun _ _ h => phys_injective (Config.mapWf_of_wf hwf) h, ?_, fun _ hfixed hm => phys_map hfixed hm⟩
  rintro (hauto | hnone)
  · exact phys_autoIncrement hauto
  · exact phys_noMap hnone

end Sys2Proof.Machine
end

section
/-! What one data byte does to the wire, a rule for each case of R69, and what one transaction does to it from an idle bus, a
rule for each kind of answer (R67). -/

namespace Sys2Proof.Machine

/-- Of a memory of which nothing is known no address is known. -/
@[simp] theorem Memory.read_nil (a : Nat) : Memory.read [] a = none := rfl

/-! ## One data byte -/

theorem exec_wData (v : Byte) (s : State) : exec (.wData v) s = .next (s.putWire (s.wire.data v)) := rfl

/-- A data byte leaves the framing, the transactions that wait, and the device's mode, display switch and brightness. -/
theorem Wire.data_frame (w : Wire) (v : Byte) :
    (w.data v).bus = w.bus ∧ (w.data v).rx = w.rx ∧ (w.data v).dev.mode = w.dev.mode ∧ (w.data v).dev.on = w.dev.on ∧
      (w.data v).dev.br = w.dev.br := by
  unfold Wire.data
  split
  · simp
  · split <;> simp
  · simp
  · simp

section
variable {w : Wire} {p : Digit} (v : Byte)

/-- Under auto-increment the byte is stored and the pointer moves on. -/
theorem Wire.data_autoIncrement (hp : w.dev.ptr = some p) (hm : w.dev.mode = some .autoIncrement) :
    w.data v = { w with dev := { w.dev with mem := w.dev.mem.write p.val v, ptr := nextPtr p } } := by
  simp [Wire.data, hp, hm]

/-- Under fixed mode the last byte of a transaction is stored. -/
theorem Wire.data_fixed_last (hp : w.dev.ptr = some p) (hm : w.dev.mode = some .fixed) (hc : w.cur = []) :
    w.data v = { w with dev := { w.dev with mem := w.dev.mem.write p.val v } } := by
  simp [Wire.data, Wire.more, hp, hm, hc]

/-- Under fixed mode a byte with a further one makes the memory and the pointer unknown. -/
theorem Wire.data_fixed_more (hp : w.dev.ptr = some p) (hm : w.dev.mode = some .fixed) (hc : w.cur ≠ []) :
    w.data v = { w with cur := [], dev := { w.dev with mem := [], ptr := none } } := by
  simp [Wire.data, Wire.more, hp, hm, hc]

/-- Without a pointer or without a mode the memory becomes unknown and the rest of the transaction goes nowhere. -/
theorem Wire.data_unknown (h : w.dev.ptr = none ∨ w.dev.mode = none) :
    w.data v = { w with cur := [], dev := { w.dev with mem := [] } } := by
  rcases h with hp | hm
  · simp [Wire.data, hp]
  · cases hp : w.dev.ptr <;> simp [Wire.data, hp, hm]

end

/-- Settles O40: the frame of a data byte, then its rule in each of the four cases. -/
theorem wireDataIsStoredAtThePointer : Obligations.WireDataIsStoredAtThePointer := by
  intro v s
  obtain ⟨hbus, hrx, hmode, hon, hbr⟩ := s.wire.data_frame v
  refine ⟨_, exec_wData v s, rfl, rfl, rfl, rfl, rfl, rfl, rfl, rfl, hbus, hrx, hmode, hon, hbr, ?_, ?_, ?_, ?_⟩
  · intro p hp hm
    rw [putWire_wire, Wire.data_autoIncrement v hp hm]
    exact ⟨fun a => Memory.read_write _ _ a v, rfl, rfl⟩
  · intro p hp hm hc
    rw [putWire_wire, Wire.data_fixed_last v hp hm hc]
    exact ⟨fun a => Memory.read_write _ _ a v, hp, hc⟩
  · intro p hp hm hc
    rw [putWire_wire, Wire.data_fixed_more v hp hm hc]
    exact ⟨Memory.read_nil, rfl, rfl⟩
  · intro h
    rw [putWire_wire, Wire.data_unknown v h]
    exact ⟨Memory.read_nil, rfl, rfl⟩

/-! ## One transaction -/

section
variable {s t : State} {b : Byte} {bs : List Byte}

/-- The wire after one transaction from an idle bus is the one that transaction makes of it. -/
theorem Sends.wire_one (h : Sends s t [b :: bs]) (hidle : BusIdle s) :
    t.wire = if (s.env.answersFor (bs.length + 1)).all ackOf then { s.wire with rx := s.wire.rx ++ [(b, bs)] } else .lost :=
  (h.wire hidle).trans (transaction_closed s.wire hidle.1 s.env b bs)

/-- A clean transaction waits for the device behind those sent before it. -/
theorem Sends.wire_clean (h : Sends s t [b :: bs]) (hidle : BusIdle s) (hclean : .high ∉ s.env.answersFor (bs.length + 1)) :
    t.wire = { s.wire with rx := s.wire.rx ++ [(b, bs)] } := by
  rw [h.wire_one hidle, if_pos ((all_ackOf _).2 hclean)]

/-- A byte not acknowledged loses the device. -/
theorem Sends.wire_not_clean (h : Sends s t [b :: bs]) (hidle : BusIdle s) (hhigh : .high ∈ s.env.answersFor (bs.length + 1)) :
    t.wire = .lost := by
  rw [h.wire_one hidle, if_neg fun hall => (all_ackOf _).1 hall hhigh]

end

/-- Nothing is on its way to a lost device, so it stays unknown. -/
@[simp] theorem Wire.settled_lost : Wire.lost.settled = .unknown := rfl

/-- Settles O42: one transaction from an idle bus either loses the device or waits for it behind the others. -/
theorem onlyCleanTransactionsReachTheDevice : Obligations.OnlyCleanTransactionsReachTheDevice := by
  intro s t b bs hidle hsends
  constructor
  · intro hhigh
    rw [hsends.wire_not_clean hidle hhigh]
    exact Wire.settled_lost
  · intro hclean
    rw [hsends.wire_clean hidle hclean]
    exact settled_append s.wire b bs

end Sys2Proof.Machine
end

section
/-! The protocol engine's own operations: each completes with the effect its list has in one piece, here in the words of R111 to
R113, R120 and R121. -/

namespace Sys2Proof.Machine

/-! ## Each completes by running its list -/

theorem exec_start (s : State) : exec .start s = .next (runAll startList s) := rfl

theorem exec_stop (s : State) : exec .stop s = .next (runAll stopList s) := rfl

theorem exec_wrbyte (v : Byte) (s : State) : exec (.wrbyte v) s = .next (runAll (wrbyteList v) s) := rfl

theorem exec_bitdelay (s : State) : exec .bitdelay s = .next (runAll bitdelayList s) := rfl

/-! ## The answer and its flags -/

/-- `ACK` is whether the answer is low (R31). -/
theorem ackOf_eq_decide (a : Level) : ackOf a = decide (a = .low) := by cases a <;> rfl

/-- `NAK` is set by a high answer and kept by a low one (R32). -/
theorem nakAfter_eq_or_decide (nak : Bool) (a : Level) : nakAfter nak a = (nak || decide (a = .high)) := by
  cases a <;> rfl

/-- Bit 0 of the result of WRBYTE is `ACK` (R41). -/
theorem ackByte_bit_zero (ack : Bool) : (ackByte ack).getLsbD 0 = ack := by cases ack <;> rfl

/-- The events of a byte, with the write of low present only for a low answer (R113, R119). -/
theorem byteEvents_eq (tBit : Nat) (v : Byte) (a : Level) :
    byteEvents tBit v a =
      ((List.range 8).flatMap fun k => [.wr .clk .low, .wr .dio (if v.getLsbD k = true then .high else .low), .wr .clk .high]) ++
      [.dir .dio .inp, .wr .clk .low, .wr .clk .high, .dly tBit, .rd .dio a] ++
      (if a = .low then [.wr .dio .low] else []) ++ [.dly tBit, .dir .dio .out] := by
  cases a <;> rfl

/-! ## WRBYTE in one piece -/

/-- WRBYTE is its byte, after which the result port holds `ACK` (R41, R113). -/
theorem runAll_wrbyteList (v : Byte) (s : State) :
    runAll (wrbyteList v) s = (runAll (byteList v) s).putPort { s.port with res := ackByte (ackOf s.env.peek) } := by
  rw [wrbyteList, runAll_append, runAll_byteList]
  rfl

/-! ## The obligations -/

/-- Settles O10: the effect of a byte in one piece, its flags and its events rewritten as conditions on the answer. -/
theorem wrbyteSendsBitsAndSamplesTheAnswer : Obligations.WrbyteSendsBitsAndSamplesTheAnswer := by
  intro v s
  refine ⟨_, exec_wrbyte v s, ?_⟩
  rw [runAll_wrbyteList, runAll_byteList]
  have hres := (ackByte_bit_zero (ackOf s.env.peek)).trans (ackOf_eq_decide s.env.peek)
  have hdio : (if ackOf s.env.peek then Level.low else Level.ofBit (v.getLsbD 7)) =
      if s.env.peek = .low then .low else if v.getLsbD 7 = true then .high else .low := by
    simp [ackOf_eq_decide, Level.ofBit]
  exact ⟨by simp only [putPort_trace, byteEvents_eq, List.append_assoc], rfl, rfl, ackOf_eq_decide _,
    nakAfter_eq_or_decide _ _, rfl, rfl, hdio, rfl, rfl, hres, rfl, rfl, rfl, rfl, rfl⟩

/-- Settles O8, by the effect of START in one piece. -/
theorem startEmitsTheStartCondition : Obligations.StartEmitsTheStartCondition := by
  intro s
  refine ⟨_, exec_start s, ?_⟩
  rw [runAll_startList]
  exact ⟨rfl, rfl, rfl, rfl, rfl, rfl, rfl, rfl, rfl, rfl⟩

/-- Settles O9, by the effect of STOP in one piece. -/
theorem stopEmitsTheStopCondition : Obligations.StopEmitsTheStopCondition := by
  intro s
  refine ⟨_, exec_stop s, ?_⟩
  rw [runAll_stopList]
  exact ⟨rfl, rfl, rfl, rfl, rfl, rfl, rfl, rfl, rfl, rfl⟩

/-- Settles O11: the list of BITDELAY is one delay, which only records itself. -/
theorem bitdelayOnlyDelays : Obligations.BitdelayOnlyDelays := by
  intro s
  rw [exec_bitdelay]
  rfl

end Sys2Proof.Machine
end

section
/-! The character encoder (R142, R143): what a lookup answers inside the table and past its end, and LOOKUP in one piece. -/

namespace Sys2Proof.Machine

/-! ## The code of an index -/

/-- Below the table's size the code is the table's entry (R142). -/
theorem lookupCode_of_lt {cfg : Config} {n : Nat} {c : Byte} (hn : n < tableSize) (hc : cfg.chartab[n]? = some c) :
    lookupCode cfg n = c := by
  rw [lookupCode, if_pos hn, List.getD_eq_getElem?_getD, hc, Option.getD_some]

/-- From the table's size on the code is the blank one (R143). -/
theorem lookupCode_of_le {cfg : Config} {n : Nat} (hn : tableSize ≤ n) : lookupCode cfg n = blankCode := by
  rw [lookupCode, if_neg (Nat.not_lt.mpr hn)]

/-! ## LOOKUP -/

/-- LOOKUP completes in every state and puts the code on the result port, which is all it changes. -/
theorem exec_lookup (idx : Byte) (s : State) :
    exec (.lookup idx) s = .next (s.putPort { s.port with res := lookupCode s.cfg idx.toNat }) := rfl

/-- Settles O16: LOOKUP puts the index's code on the result port, and that code is the entry below 43 and blank from there. -/
theorem lookupAnswersEntryOrBlank : Obligations.LookupAnswersEntryOrBlank := by
  intro idx s
  constructor
  · intro c hlt hentry
    rw [exec_lookup, lookupCode_of_lt hlt hentry]
    rfl
  · intro hle
    rw [exec_lookup, lookupCode_of_le hle]
    rfl

end Sys2Proof.Machine
end

section
/-! The addressed sends (R154 to R157): SENDCMD as a transaction and as the host operations it stands for, and WRDIGIT and WRRUN
in a build of their address mode. -/

namespace Sys2Proof.Machine

/-! ## Host operations one after another -/

@[simp] theorem execOps_nil (s : State) : execOps [] s = .next s := rfl

/-- An operation that completes hands its state to those after it. -/
theorem execOps_cons_of_next {i : Instr} {s t : State} (h : exec i s = .next t) (rest : List Decoded) :
    execOps (.ok i :: rest) s = execOps rest t := by
  simp [execOps, h]

/-- START, WRBYTE c and STOP in turn run the three lists one after another. -/
theorem execOps_start_wrbyte_stop (c : Byte) (s : State) :
    execOps [.ok .start, .ok (.wrbyte c), .ok .stop] s =
      .next (runAll stopList (runAll (wrbyteList c) (runAll startList s))) := by
  rw [execOps_cons_of_next (exec_start s), execOps_cons_of_next (exec_wrbyte c _), execOps_cons_of_next (exec_stop _),
    execOps_nil]

/-! ## SENDCMD and the framed WRBYTE -/

/-- STOP keeps whatever the ports hold. -/
theorem runAll_stopList_putPort (s : State) (p : Port) : runAll stopList (s.putPort p) = (runAll stopList s).putPort p := by
  rw [runAll_stopList, runAll_stopList]
  rfl

/-- Writing the ports and putting the old ones back changes nothing. -/
theorem eq_putPort_with_port (s : State) (p : Port) : s = { s.putPort p with port := s.port } := rfl

/-- A framed WRBYTE ends in the state of SENDCMD, but with `ACK` on the result port. -/
theorem runAll_framed_wrbyteList (c : Byte) (s : State) :
    runAll stopList (runAll (wrbyteList c) (runAll startList s)) =
      (runAll (sendcmdList c) s).putPort { s.port with res := ackByte (ackOf s.env.peek) } := by
  rw [sendcmdList, runAll_append, runAll_append, runAll_wrbyteList, runAll_stopList_putPort, runAll_startList]

/-- Settles O18: the list of SENDCMD sends its transaction, and the framed WRBYTE differs from it on the result port only. -/
theorem sendcmdIsAOneByteTransaction : Obligations.SendcmdIsAOneByteTransaction := by
  intro c s hready
  obtain ⟨hsends, hdaddr⟩ := sends_sendcmd s c
  refine ⟨_, _, exec_sendcmd_ready hready c, hsends, hdaddr, execOps_start_wrbyte_stop c s, ?_, ?_⟩
  · rw [runAll_framed_wrbyteList]
    exact eq_putPort_with_port _ _
  · rw [runAll_framed_wrbyteList, hsends.ops, putPort_port]

/-! ## WRDIGIT and WRRUN -/

/-- Settles O19: under Fixed WRDIGIT runs the list that sends the mode command and the addressed code. -/
theorem wrdigitSendsModeThenAddressedCode : Obligations.WrdigitSendsModeThenAddressedCode := by
  intro d v s hready hmode
  exact ⟨_, exec_wrdigit_ready hready hmode d v, sends_wrdigit s s.cfg d v⟩

/-- A run of at least one code that ends by digit 3 is within the bounds (R59). -/
theorem runFits_of_bounds {d : Digit} {vs : List Byte} (hpos : 1 ≤ vs.length) (hend : d.val + vs.length ≤ 4) :
    runFits d vs = true := by
  simp [runFits, hpos, hend]

/-- The address byte under AutoIncrement is that of the digit itself (R34, R153). -/
theorem addrByte_autoIncrement {cfg : Config} (h : cfg.mode = .autoIncrement) (d : Digit) :
    addrByte cfg d = 0xC0 + digitByte d := by
  rw [addrByte, phys_autoIncrement h]
  rfl

/-- Settles O20: within the bounds WRRUN runs the list that sends the mode command and the burst, and under AutoIncrement its
physical index is its digit. -/
theorem wrrunSendsModeThenBurst : Obligations.WrrunSendsModeThenBurst := by
  intro d vs s hready hmode hpos hend
  have hne : vs ≠ [] := List.ne_nil_of_length_pos hpos
  obtain ⟨hsends, hdaddr⟩ := sends_wrrun s s.cfg d vs hne
  rw [addrByte_autoIncrement hmode] at hsends
  rw [phys_autoIncrement hmode] at hdaddr
  refine ⟨_, exec_wrrun_ready hready hmode d vs (runFits_of_bounds hpos hend), hsends, ?_⟩
  rw [hdaddr, Fin.val_add, Fin.val_ofNat, Nat.add_mod_mod]

end Sys2Proof.Machine
end

section
/-! The display controller (R171 to R179, R184 to R186): BEGIN and the two commands it shares with the host, then each
operation that shows codes. What each list shows or sends is known; here are the operands in the spec's own words. -/

namespace Sys2Proof.Machine

/-! ## The commands: DISPOFF and DISPBRIGHT -/

/-- Settles O25: the list of DISPOFF is SENDCMD of the off command. -/
theorem dispoffSendsTheOffCommand : Obligations.DispoffSendsTheOffCommand := by
  intro s hready
  exact ⟨_, exec_dispoff_ready hready, sends_sendcmd s dispOff⟩

/-- The command for a masked level is 0x88 and the level modulo 8 (R84, R89). -/
theorem onByte_levelBits (l : Byte) : onByte (levelBits l) = BitVec.ofNat 8 (0x88 + l.toNat % 8) := by
  apply BitVec.eq_of_toNat_eq
  have hbase : onBase.toNat = 0x88 := rfl
  simp only [onByte, levelBits, hbase, BitVec.toNat_add, BitVec.toNat_setWidth, BitVec.toNat_ofNat]
  omega

/-- Settles O27: DISPBRIGHT stores the masked level and sends its command, which is 0x88 and the level modulo 8. -/
theorem dispbrightStoresAndSendsTheMaskedLevel : Obligations.DispbrightStoresAndSendsTheMaskedLevel := by
  intro l s hready
  rw [← onByte_levelBits]
  exact ⟨_, exec_dispbright_ready hready l, sends_dispbright s l⟩

/-! ## BEGIN -/

/-- The digit count BEGIN configures is the request within 1 to 4, else 1 (R171). -/
theorem requestedCount_toNat (n : Byte) :
    (requestedCount n).toNat = if 1 ≤ n.toNat ∧ n.toNat ≤ 4 then n.toNat else 1 := by
  unfold requestedCount
  split
  case h_5 h1 h2 h3 h4 =>
    simp only [imp_false] at h1 h2 h3 h4
    rw [if_neg (by omega)]
    rfl
  all_goals
    next hn => simp [hn, DigitCount.toNat]

/-- The quirk is active when it is asked for and three digits are configured (R24). -/
theorem quirkFlag_eq (cfg : Config) (nd : DigitCount) : quirkFlag cfg nd = (cfg.quirkReq && decide (nd.toNat = 3)) := by
  cases nd <;> rfl

/-- From a cleared `NAK`, it is set exactly when an answer was high (R32). -/
theorem foldl_nakAfter_false (as : List Level) : as.foldl nakAfter false = decide (.high ∈ as) := by
  rw [foldl_nakAfter, Bool.false_or, Bool.eq_iff_iff]
  simp

/-- Settles O23: BEGIN configures the state from which it sends, and sends the blanks, the point and the level. -/
theorem beginConfiguresClearsAndLights : Obligations.BeginConfiguresClearsAndLights := by
  intro n b s
  obtain ⟨dr, hdr, hsends, -⟩ := sends_begin n b s
  have hclk := congrArg Pair.clk hsends.dirr
  have hdio := congrArg Pair.dio hsends.dirr
  exact ⟨_, requestedCount n, quirkFlag s.cfg (requestedCount n), dr, _, exec_begin n b, requestedCount_toNat n,
    quirkFlag_eq _ _, hdr, rfl, hsends.ctl, hsends.trace, hclk, hdio, hsends.nak.trans (foldl_nakAfter_false _),
    hsends.env, hsends.cfg, hsends.seq, hsends.ops⟩

/-! ## Codes shown as they are: DISPCLEAR, DISPCHAR, DISPDP -/

/-- Settles O26: the list of DISPCLEAR shows the blanks, and then the point off when the quirk is active. -/
theorem dispclearBlanksTheConfiguredDigits : Obligations.DispclearBlanksTheConfiguredDigits := by
  intro s hready
  obtain ⟨hplain, hquirk⟩ := shows_dispclear s s.ctl.nd s.ctl.qk
  refine ⟨fun hqk => ⟨_, exec_dispclear_ready hready, hplain hqk⟩, fun hqk => ?_⟩
  obtain ⟨u, hblank, hpoint⟩ := hquirk hqk
  exact ⟨u, _, exec_dispclear_ready hready, hblank, hpoint⟩

/-- Settles O28: DISPCHAR shows one code from the clamped start of a one-digit field on. -/
theorem dispcharShowsOneClampedDigit : Obligations.DispcharShowsOneClampedDigit := by
  intro d v raw s d' hready hd'
  refine ⟨_, exec_dispchar_ready hready d v raw, ?_⟩
  rw [dispcharList, clampStart_eq hd']
  exact shows_showList s d' [charCode s.cfg v raw] (List.cons_ne_nil _ _)

/-- Without the quirk DISPDP changes nothing (R186). -/
theorem exec_dispdp_noQuirk {s : State} (hready : s.ctl.init = true) (hqk : s.ctl.qk = false) (on : Bool) :
    exec (.dispdp on) s = .next s := by
  rw [exec_dispdp_ready hready, dispdpList, hqk]
  rfl

/-- Settles O33: with the quirk DISPDP shows the point's code at digit 3, and without it nothing. -/
theorem dispdpWritesTheQuirkDigit : Obligations.DispdpWritesTheQuirkDigit := by
  intro on s hready
  refine ⟨fun hqk => ⟨_, exec_dispdp_ready hready on, ?_⟩, fun hqk => exec_dispdp_noQuirk hready hqk on⟩
  rw [hqk, dispdpList, if_pos rfl]
  exact shows_showList s 3 [dpCode s.cfg on] (List.cons_ne_nil _ _)

/-! ## Numbers: too few digits -/

/-- A field wider than the configured digits is no entry at all (R186). -/
theorem fieldList_of_lt {cfg : Config} {nd : DigitCount} {m : Nat} (h : nd.toNat < m) (st : Byte) (dec : Bool) (w : Nat) :
    fieldList cfg nd m st dec w = [] := if_pos h

section
variable {s : State} (hready : s.ctl.init = true) (st : Byte) (dec : Bool)
include hready

theorem exec_dispint8_tooFew (h : s.ctl.nd.toNat < 2) (v : Byte) : exec (.dispint8 st v dec) s = .next s := by
  rw [exec_dispint8_ready hready, fieldList_of_lt h, runAll_nil]

theorem exec_dispint12_tooFew (h : s.ctl.nd.toNat < 3) (v : BitVec 16) : exec (.dispint12 st v dec) s = .next s := by
  rw [exec_dispint12_ready hready, fieldList_of_lt h, runAll_nil]

theorem exec_dispint16_tooFew (h : s.ctl.nd.toNat < 4) (v : BitVec 16) : exec (.dispint16 st v dec) s = .next s := by
  rw [exec_dispint16_ready hready, fieldList_of_lt h, runAll_nil]

end

/-- Settles O32: a field that has no room, and a point that has no quirk, is an empty list. -/
theorem insufficientConfigurationIsASilentNoOp : Obligations.InsufficientConfigurationIsASilentNoOp := by
  intro st v8 v f s hready
  exact ⟨fun h => exec_dispint8_tooFew hready st f h v8, fun h => exec_dispint12_tooFew hready st f h v,
    fun h => exec_dispint16_tooFew hready st f h v, fun h => exec_dispdp_noQuirk hready h f⟩

/-! ## Numbers: the digits of a value (R183, R185) -/

theorem digitAt_decimal (w j : Nat) : digitAt true w j = w / 10 ^ j % 10 := rfl

/-- A nibble is a digit to the base 16. -/
theorem digitAt_hexadecimal (w j : Nat) : digitAt false w j = w / 16 ^ j % 16 := by
  have hnibble : (w >>> (4 * j)) &&& 0xF = (w >>> (4 * j)) % 2 ^ 4 := Nat.and_two_pow_sub_one_eq_mod _ 4
  rw [digitAt, if_neg Bool.false_ne_true, hnibble, Nat.shiftRight_eq_div_pow, Nat.pow_mul]
  rfl

/-- DISPINT8 shows tens and units of a value saturated at 99, or the two nibbles (R176). -/
theorem fieldDigits_value8 (dec : Bool) (v : Byte) :
    fieldDigits dec (value8 dec v) 2 =
      if dec = true then [min v.toNat 99 / 10, min v.toNat 99 % 10] else [v.toNat / 16, v.toNat % 16] := by
  cases dec with
  | true =>
    have hlead : min v.toNat 99 / 10 % 10 = min v.toNat 99 / 10 := by omega
    simp [fieldDigits, value8, digitAt_decimal, hlead]
  | false =>
    have hlead : v.toNat / 16 % 16 = v.toNat / 16 := by omega
    simp [fieldDigits, value8, digitAt_hexadecimal, hlead]

/-- DISPINT12 shows hundreds, tens and units of a value saturated at 999, or three nibbles of one saturated at 0xFFF (R177). -/
theorem fieldDigits_value12 (dec : Bool) (v : BitVec 16) :
    fieldDigits dec (value12 dec v) 3 =
      if dec = true then [min v.toNat 999 / 100, min v.toNat 999 / 10 % 10, min v.toNat 999 % 10]
      else [min v.toNat 0xFFF / 256, min v.toNat 0xFFF / 16 % 16, min v.toNat 0xFFF % 16] := by
  cases dec with
  | true =>
    have hlead : min v.toNat 999 / 100 % 10 = min v.toNat 999 / 100 := by omega
    simp [fieldDigits, value12, digitAt_decimal, hlead]
  | false =>
    have hlead : min v.toNat 0xFFF / 256 % 16 = min v.toNat 0xFFF / 256 := by omega
    simp [fieldDigits, value12, digitAt_hexadecimal, hlead]

/-- DISPINT16 shows the four decimal digits of a value saturated at 9999, or the four nibbles (R178). -/
theorem fieldDigits_value16 (dec : Bool) (v : BitVec 16) :
    fieldDigits dec (value16 dec v) 4 =
      if dec = true then
        [min v.toNat 9999 / 1000, min v.toNat 9999 / 100 % 10, min v.toNat 9999 / 10 % 10, min v.toNat 9999 % 10]
      else [v.toNat / 4096, v.toNat / 256 % 16, v.toNat / 16 % 16, v.toNat % 16] := by
  cases dec with
  | true =>
    have hlead : min v.toNat 9999 / 1000 % 10 = min v.toNat 9999 / 1000 := by omega
    simp [fieldDigits, value16, digitAt_decimal, hlead]
  | false =>
    have hlead : v.toNat / 4096 % 16 = v.toNat / 4096 := by omega
    simp [fieldDigits, value16, digitAt_hexadecimal, hlead]

/-- Settles O29: a two-digit field with room shows the codes of its two digits. -/
theorem dispint8ShowsTwoDigits : Obligations.Dispint8ShowsTwoDigits := by
  intro st v dec s hready
  refine ⟨fun d hroom hd => ⟨_, exec_dispint8_ready hready st v dec, ?_⟩, fun h => exec_dispint8_tooFew hready st dec h v⟩
  rw [← fieldDigits_value8]
  exact shows_field s 2 two_ne_zero st dec _ d hroom hd

/-- Settles O30: a three-digit field with room shows the codes of its three digits. -/
theorem dispint12ShowsThreeDigits : Obligations.Dispint12ShowsThreeDigits := by
  intro st v dec s hready
  refine ⟨fun d hroom hd => ⟨_, exec_dispint12_ready hready st v dec, ?_⟩,
    fun h => exec_dispint12_tooFew hready st dec h v⟩
  rw [← fieldDigits_value12]
  exact shows_field s 3 three_ne_zero st dec _ d hroom hd

/-- Settles O31: a four-digit field with room shows the codes of its four digits, and always from digit 0 on. -/
theorem dispint16ShowsFourDigits : Obligations.Dispint16ShowsFourDigits := by
  intro st v dec s hready
  refine ⟨fun hnd => ⟨_, exec_dispint16_ready hready st v dec, ?_⟩, fun h => exec_dispint16_tooFew hready st dec h v⟩
  have hstart : ((0 : Digit).val) = min st.toNat (s.ctl.nd.toNat - 4) := by simp [hnd]
  rw [← fieldDigits_value16]
  exact shows_field s 4 four_ne_zero st dec _ 0 hnd.ge hstart

/-! ## Numbers: saturation (R185) -/

theorem value8_decimal_of_le {v : Byte} (h : 99 ≤ v.toNat) : value8 true v = 99 := min_eq_right h

theorem value12_decimal_of_le {v : BitVec 16} (h : 999 ≤ v.toNat) : value12 true v = 999 := min_eq_right h

theorem value12_hexadecimal_of_le {v : BitVec 16} (h : 0xFFF ≤ v.toNat) : value12 false v = 0xFFF := min_eq_right h

theorem value16_decimal_of_le {v : BitVec 16} (h : 9999 ≤ v.toNat) : value16 true v = 9999 := min_eq_right h

section
variable {st : Byte} {dec : Bool} (s : State)

/-- DISPINT8 does not look at its operand but for the value it renders. -/
theorem exec_dispint8_congr {v v' : Byte} (h : value8 dec v = value8 dec v') :
    exec (.dispint8 st v dec) s = exec (.dispint8 st v' dec) s := by
  simp only [exec, execDispint8, h]

/-- Nor does DISPINT12. -/
theorem exec_dispint12_congr {v v' : BitVec 16} (h : value12 dec v = value12 dec v') :
    exec (.dispint12 st v dec) s = exec (.dispint12 st v' dec) s := by
  simp only [exec, execDispint12, h]

/-- Nor does DISPINT16. -/
theorem exec_dispint16_congr {v v' : BitVec 16} (h : value16 dec v = value16 dec v') :
    exec (.dispint16 st v dec) s = exec (.dispint16 st v' dec) s := by
  simp only [exec, execDispint16, h]

end

/-- Settles O35: from the limit on the rendered value is the limit, and it is all the operation looks at. -/
theorem valuesAboveTheLimitRenderAsTheLimit : Obligations.ValuesAboveTheLimitRenderAsTheLimit := by
  intro st v8 v s
  exact ⟨fun h => exec_dispint8_congr s (value8_decimal_of_le h), fun h => exec_dispint12_congr s (value12_decimal_of_le h),
    fun h => exec_dispint12_congr s (value12_hexadecimal_of_le h), fun h => exec_dispint16_congr s (value16_decimal_of_le h)⟩

end Sys2Proof.Machine
end

section
/-! The decoder (R80 to R98) against the encoder: what the fields of an encoded word read as, and which first bytes are in the
table. -/

namespace Sys2Proof

/-! ## The fields of an encoded word -/

theorem digitByte_toNat (d : Digit) : (digitByte d).toNat = d.val := by revert d; decide

section
variable {w : OpWord}

/-- A byte in `op_b` leaves its upper half 0. -/
theorem OpWord.bIsByte_of_byte {v : Byte} (h : w.b = v.setWidth 16) : w.bIsByte = true := by
  have hv := v.isLt
  simp only [OpWord.bIsByte, h, BitVec.toNat_setWidth, decide_eq_true_eq]
  omega

/-- And it is read back from the lower half. -/
theorem OpWord.bLow_of_byte {v : Byte} (h : w.b = v.setWidth 16) : w.bLow = v := by
  rw [OpWord.bLow, h, BitVec.setWidth_setWidth_of_le v (by decide), BitVec.setWidth_eq]

/-- A digit in `op_a` leaves the bits above its field 0. -/
theorem OpWord.aIsDigit_of_digit {d : Digit} (h : w.a = digitByte d) : w.aIsDigit = true := by
  rw [OpWord.aIsDigit, h, digitByte_toNat, decide_eq_true_eq]
  exact d.isLt

/-- And it is read back. -/
theorem OpWord.aDigit_of_digit {d : Digit} (h : w.a = digitByte d) : w.aDigit = d := by
  rw [OpWord.aDigit, h, digitByte_toNat]
  exact Fin.ofNat_val_eq_self d

end

/-- As many entries of `op_codes` as there are codes are the codes. -/
theorem codesOf_take {vs : List Byte} (h : vs.length ≤ 4) : (codesOf vs).toList.take vs.length = vs := by
  match vs with
  | [] | [_] | [_, _] | [_, _, _] | [_, _, _, _] => rfl
  | _ :: _ :: _ :: _ :: _ :: _ => simp only [List.length_cons] at h; omega

/-! ## Rows with operands of fewer bits than their fields -/

theorem ifNoStrayBits_of_true {ok : Bool} (h : ok = true) (i : Instr) : ifNoStrayBits ok i = .ok i := if_pos h

section
variable {w : OpWord} {d : Digit} {v : Byte} {vs : List Byte}

theorem ifNoStrayBits_digit_byte (ha : w.a = digitByte d) (hb : w.b = v.setWidth 16) :
    ifNoStrayBits (w.aIsDigit && w.bIsByte) (.wrdigit w.aDigit w.bLow) = .ok (.wrdigit d v) := by
  rw [OpWord.aIsDigit_of_digit ha, OpWord.bIsByte_of_byte hb, OpWord.aDigit_of_digit ha, OpWord.bLow_of_byte hb]
  rfl

/-- WRRUN is the one row with a well-formedness of its own: k has to be at most 4 (R91, R156). -/
theorem decodeRun_codes (ha : w.a = digitByte d) (hb : w.b = BitVec.ofNat 16 vs.length) (hc : w.codes = codesOf vs)
    (hlen : vs.length ≤ 4) : decodeRun w = .ok (.wrrun d vs) := by
  have hk : w.b.toNat = vs.length := by
    rw [hb, BitVec.toNat_ofNat]
    omega
  have hfits : (w.aIsDigit && decide (w.b.toNat < 8)) = true := by
    rw [OpWord.aIsDigit_of_digit ha, hk, Bool.true_and, decide_eq_true_eq]
    omega
  rw [decodeRun, if_pos hfits, hk, if_pos hlen, OpWord.aDigit_of_digit ha, hc, codesOf_take hlen]

/-- A row whose `op_b` is a byte decodes by what its operands read as. -/
theorem ifNoStrayBits_byte (h : w.b = v.setWidth 16) (f : Byte → Instr) :
    ifNoStrayBits w.bIsByte (f w.bLow) = .ok (f v) := by
  rw [ifNoStrayBits_of_true (OpWord.bIsByte_of_byte h), OpWord.bLow_of_byte h]

end

/-- A run within its bounds has at most four codes (R59). -/
theorem length_le_of_runFits {d : Digit} {vs : List Byte} (h : runFits d vs = true) : vs.length ≤ 4 := by
  simp only [runFits, Bool.and_eq_true, decide_eq_true_eq] at h
  omega

/-- Settles O6: most rows read their operands where the encoder put them; the others by the lemmas above. -/
theorem decodeOfEncodeIsTheInstruction : Obligations.DecodeOfEncodeIsTheInstruction := by
  intro i hwf
  cases i with
  | wAuto | wFixed | wOff | start | stop | bitdelay | dispoff | dispclear => rfl
  | wData v | wrbyte v | lookup v | sendcmd v | dispbright v => rfl
  | dispint12 st v dec | dispint16 st v dec => rfl
  | dispdp on | disptest on => rfl
  | wOn l => revert l; decide
  | wAddr p => revert p; decide
  | wrdigit d v =>
    exact ifNoStrayBits_digit_byte (w := { OpWord.bare 0x06 with a := digitByte d, b := v.setWidth 16 }) rfl rfl
  | wrrun d vs =>
    exact decodeRun_codes
      (w := { OpWord.bare 0x07 with a := digitByte d, b := BitVec.ofNat 16 vs.length, codes := codesOf vs })
      rfl rfl rfl (length_le_of_runFits hwf)
  | beginDisp n b => exact ifNoStrayBits_byte (w := { OpWord.bare 0x08 with a := n, b := b.setWidth 16 }) rfl (.beginDisp n)
  | dispchar d v raw =>
    exact ifNoStrayBits_byte (w := { OpWord.bare 0x0C with a := d, b := v.setWidth 16, f := raw }) rfl (.dispchar d · raw)
  | dispint8 st v dec =>
    exact ifNoStrayBits_byte (w := { OpWord.bare 0x0D with a := st, b := v.setWidth 16, f := dec }) rfl (.dispint8 st · dec)

/-! ## Wire bytes -/

/-- The first bytes of the table (R80 to R85). -/
def listedFirst (b : Byte) : Prop :=
  b = setAuto ∨ b = setFixed ∨ b = dispOff ∨ (0x88 ≤ b.toNat ∧ b.toNat ≤ 0x8F) ∨ (0xC0 ≤ b.toNat ∧ b.toNat ≤ 0xC3)

/-- The display-on commands are the bytes 0x88 to 0x8F, as the decoder's mask has them (R84). -/
theorem and_eq_onBase_iff : ∀ b : Byte, b &&& 0xF8 = onBase ↔ 0x88 ≤ b.toNat ∧ b.toNat ≤ 0x8F := by decide

/-- The address bytes are 0xC0 to 0xC3, as the decoder's mask has them (R85). -/
theorem and_eq_baseAddr_iff : ∀ b : Byte, b &&& 0xFC = baseAddr ↔ 0xC0 ≤ b.toNat ∧ b.toNat ≤ 0xC3 := by decide

/-- A first byte decodes to a command, to an address, or to nothing. -/
theorem decodeWire_first_cases (b : Byte) :
    decodeWire .first b = .ok .wAuto ∨ decodeWire .first b = .ok .wFixed ∨ decodeWire .first b = .ok .wOff ∨
      (∃ l, decodeWire .first b = .ok (.wOn l)) ∨ (∃ i, decodeWire .first b = .ok (.wAddr i)) ∨
      ∃ e, decodeWire .first b = .error e := by
  unfold decodeWire
  dsimp only
  split_ifs <;> simp

/-- A first byte is rejected when it is not in the table, and only then (R95). -/
theorem decodeWire_first_error_iff (b : Byte) : (∃ e, decodeWire .first b = .error e) ↔ ¬listedFirst b := by
  rw [listedFirst, ← and_eq_onBase_iff, ← and_eq_baseAddr_iff]
  unfold decodeWire
  constructor
  · rintro ⟨e, he⟩
    simp only at he
    split_ifs at he with h1 h2 h3 h4 h5
    simp only [h1, h2, h3, h4, h5, or_self, not_false_eq_true]
  · intro h
    simp only [not_or] at h
    obtain ⟨h1, h2, h3, h4, h5⟩ := h
    exact ⟨.unlistedWireByte b, by simp only [h1, h2, h3, h4, h5, if_false]⟩

/-- Settles O7: a data byte is always one, and a first byte is one of the table. -/
theorem firstBytesOutsideTheTableAreRejected : Obligations.FirstBytesOutsideTheTableAreRejected := by
  intro p b
  cases p with
  | data => exact ⟨nofun, nofun⟩
  | first => exact (decodeWire_first_error_iff b).trans ⟨fun h => ⟨rfl, h⟩, fun h => h.2⟩

/-- Settles O5, by evaluating the decoder on each encoding. -/
theorem writtenOutEncodingsDecode : Obligations.WrittenOutEncodingsDecode := by
  unfold Obligations.WrittenOutEncodingsDecode
  decide

end Sys2Proof
end

section
/-! The trace (R115, R125, R127): the counts of a transaction's events, the data line in the bit loop, and what the trace decoder
reads back. -/

namespace Sys2Proof.Machine

/-! ## Reading back -/

/-- Settles O15: reading raw operations and reading transactions, from the empty reader. -/
theorem traceDecoderReadsWhatWasSent : Obligations.TraceDecoderReadsWhatWasSent := by
  intro tBit
  refine ⟨fun ops => read_raw tBit ops .empty rfl, fun txs => ?_⟩
  simp only [← ackOf_eq_decide]
  exact read_transactions tBit txs

/-! ## Counting -/

/-- A byte has 32 events, one less when it is not acknowledged. -/
theorem byteEvents_length (tBit : Nat) (v : Byte) (a : Level) :
    (byteEvents tBit v a).length + (if a = .high then 1 else 0) = 32 := by
  cases a <;> rfl

/-- A byte has two delays, one sample and nine rises of the clock. -/
theorem byteEvents_counts (tBit : Nat) (v : Byte) (a : Level) :
    (byteEvents tBit v a).countP isDelay = 2 ∧ (byteEvents tBit v a).countP isSample = 1 ∧
      (byteEvents tBit v a).countP isClockHigh = 9 := by
  cases a <;> exact ⟨rfl, rfl, rfl⟩

/-- START and STOP have four events each. -/
theorem transactionEvents_length (tBit : Nat) (bytes : List (Byte × Level)) :
    (transactionEvents tBit bytes).length + bytes.countP (fun x => decide (x.2 = .high)) = 8 + 32 * bytes.length := by
  have hbytes : (bytes.flatMap fun x => byteEvents tBit x.1 x.2).length + bytes.countP (fun x => decide (x.2 = .high)) =
      32 * bytes.length := by
    induction bytes with
    | nil => rfl
    | cons x xs ih =>
      have hx := byteEvents_length tBit x.1 x.2
      simp only [List.flatMap_cons, List.length_append, List.countP_cons, decide_eq_true_eq, List.length_cons]
      omega
  simp only [transactionEvents, List.length_append, startEvents, stopEvents, List.length_cons, List.length_nil]
  omega

/-- What each byte has k of, a transaction has k of for each byte, beside what START and STOP have. -/
theorem transactionEvents_countP {tBit : Nat} {p : Event → Bool} {k : Nat}
    (hk : ∀ v a, (byteEvents tBit v a).countP p = k) (bytes : List (Byte × Level)) :
    (transactionEvents tBit bytes).countP p = startEvents.countP p + k * bytes.length + stopEvents.countP p := by
  have hbytes : (bytes.flatMap fun x => byteEvents tBit x.1 x.2).countP p = k * bytes.length := by
    induction bytes with
    | nil => rfl
    | cons x xs ih => rw [List.flatMap_cons, List.countP_append, hk, ih, List.length_cons, Nat.mul_succ, Nat.add_comm]
  rw [transactionEvents, List.countP_append, List.countP_append, hbytes]

/-- Settles O14: the counts of a byte, taken as often as there are bytes. -/
theorem transactionEventCounts : Obligations.TransactionEventCounts := by
  intro tBit bytes
  have hdelay := transactionEvents_countP (p := isDelay) (fun v a => (byteEvents_counts tBit v a).1) bytes
  have hsample := transactionEvents_countP (p := isSample) (fun v a => (byteEvents_counts tBit v a).2.1) bytes
  have hclock := transactionEvents_countP (p := isClockHigh) (fun v a => (byteEvents_counts tBit v a).2.2) bytes
  have hstart : startEvents.countP isDelay = 0 ∧ startEvents.countP isSample = 0 ∧ startEvents.countP isClockHigh = 1 := by decide
  have hstop : stopEvents.countP isDelay = 0 ∧ stopEvents.countP isSample = 0 ∧ stopEvents.countP isClockHigh = 1 := by decide
  refine ⟨transactionEvents_length tBit bytes, ?_, ?_, ?_⟩ <;> omega

/-! ## The data line in the bit loop -/

/-- Each bit writes the data line after the clock went low and before it goes high. -/
theorem dataOnlyWhileClockLow_bits (f : Nat → Bool) (ks : List Nat) (clk : Level) :
    dataOnlyWhileClockLow clk (ks.flatMap fun k => bitEvents (f k)) = true := by
  induction ks generalizing clk with
  | nil => rfl
  | cons k ks ih => exact ih .high

/-- The bit loop is the first 24 events of a byte. -/
theorem byteEvents_take (tBit : Nat) (v : Byte) (a : Level) :
    (byteEvents tBit v a).take 24 = (List.range 8).flatMap fun k => bitEvents (v.getLsbD k) := by
  cases a <;> rfl

/-- Settles O13: the first 24 events of WRBYTE are its bits. -/
theorem dataLineChangesOnlyWhileClockIsLow : Obligations.DataLineChangesOnlyWhileClockIsLow := by
  intro v s t h
  rw [exec_wrbyte, runAll_wrbyteList, runAll_byteList] at h
  injection h with h
  subst h
  rw [putPort_trace, List.drop_left, byteEvents_take]
  exact dataOnlyWhileClockLow_bits _ _ _

end Sys2Proof.Machine
end

section
/-! A step from idle: what it fetches (log entry 7), and that the device, taking its bytes one a step, ends where the rules for
whole transactions put it (R67 to R69). -/

namespace Sys2Proof.Machine

/-! ## What is fetched -/

theorem step_of_idle {s : State} (h : s.seq = .idle) : step s = runFetched s (fetch s) := by
  rw [step, h]

section
variable {s : State}

/-- A transaction being taken comes first. -/
theorem fetch_data {v : Byte} {rest : List Byte} (h : s.wire.cur = v :: rest) :
    fetch s = .wire .data v (s.putWire { s.wire with cur := rest }) := by
  rw [fetch, h]

/-- Then the next transaction on its way to the device. -/
theorem fetch_first {b : Byte} {rest : List Byte} {q : List (Byte × List Byte)} (hcur : s.wire.cur = [])
    (hrx : s.wire.rx = (b, rest) :: q) : fetch s = .wire .first b (s.putWire { s.wire with rx := q, cur := rest }) := by
  rw [fetch, hcur, hrx]

/-- Then the operation word presented. -/
theorem fetch_op {w : OpWord} {q : List OpWord} (hcur : s.wire.cur = []) (hrx : s.wire.rx = []) (hops : s.port.ops = w :: q) :
    fetch s = .op w (s.putPort { s.port with ops := q }) := by
  rw [fetch, hcur, hrx, hops]

theorem fetch_nothing (hcur : s.wire.cur = []) (hrx : s.wire.rx = []) (hops : s.port.ops = []) : fetch s = .nothing := by
  rw [fetch, hcur, hrx, hops]

end

/-- Settles O2: with nothing on its way to the device a step fetches the operation word. -/
theorem stepRunsThePresentedOperation : Obligations.StepRunsThePresentedOperation := by
  intro s hidle hcur hrx
  constructor
  · intro w q hops
    rw [step_of_idle hidle, fetch_op hcur hrx hops]
    constructor
    · intro i hi
      have hdecode : decodeOp w = .ok i := hi
      rw [runFetched, hdecode]
      rfl
    · intro e he
      have hdecode : decodeOp w = .error e := he
      rw [runFetched, hdecode]
  · intro hops
    rw [step_of_idle hidle, fetch_nothing hcur hrx hops]
    rfl

/-- Settles O3: a step fetches the byte that comes next, which decodes by its position. -/
theorem stepRunsTheNextWireByte : Obligations.StepRunsTheNextWireByte := by
  intro s hidle
  constructor
  · intro b rest q hcur hrx
    rw [step_of_idle hidle, fetch_first hcur hrx]
    constructor
    · intro i hi
      have hdecode : decodeWire .first b = .ok i := hi
      rw [runFetched, hdecode]
      rfl
    · intro e he
      have hdecode : decodeWire .first b = .error e := he
      rw [runFetched, hdecode]
      rfl
  · intro v rest hcur
    rw [step_of_idle hidle, fetch_data hcur]
    rfl

/-! ## The wire instructions -/

/-- A command alone in its transaction has its effect (R68). -/
theorem Wire.command_alone {w : Wire} (h : w.cur = []) (f : Device → Device) : w.command f = { w with dev := f w.dev } := by
  simp [Wire.command, Wire.more, h]

/-- With a further byte all becomes unknown and the rest is dropped (R68). -/
theorem Wire.command_more {w : Wire} (h : w.cur ≠ []) (f : Device → Device) :
    w.command f = { w with cur := [], dev := .unknown } := by
  simp [Wire.command, Wire.more, h]

/-- Settles O39: each command is `Wire.command` with its own effect, alone or with a further byte. -/
theorem wireCommandsAndAddressesSetTheDevice : Obligations.WireCommandsAndAddressesSetTheDevice := by
  intro l p s
  refine ⟨_, _, _, _, rfl, rfl, rfl, rfl, rfl, fun hcur => ?_, fun hcur t ht => ?_⟩
  · simp only [Wire.command_alone hcur]
    exact ⟨rfl, rfl, rfl, rfl⟩
  · simp only [Wire.command_more hcur, List.mem_cons, List.not_mem_nil, or_false, or_self] at ht
    rw [ht]
    rfl

/-! ## Byte by byte and transaction by transaction -/

/-- Going from w to w' the wire takes a byte after which, with the rest of its transaction, the device is d. -/
structure Wire.Takes (w w' : Wire) (d : Device) : Prop where
  dev : w'.dev.takeData w'.cur = d
  rx : w'.rx = w.rx
  cur : w'.cur.length ≤ w.cur.length

theorem Wire.takes_command (w : Wire) (f : Device → Device) :
    w.Takes (w.command f) (if w.cur.isEmpty then f w.dev else .unknown) := by
  cases hcur : w.cur with
  | nil =>
    rw [Wire.command_alone hcur]
    exact ⟨by simp [hcur, Device.takeData], rfl, le_rfl⟩
  | cons v rest =>
    rw [Wire.command_more (by simp [hcur])]
    exact ⟨rfl, rfl, Nat.zero_le _⟩

theorem Wire.takes_address (w : Wire) (i : Digit) : w.Takes (w.address i) (Device.takeData { w.dev with ptr := some i } w.cur) :=
  ⟨rfl, rfl, le_rfl⟩

theorem Wire.takes_unlisted (w : Wire) : w.Takes w.unlisted .unknown := ⟨rfl, rfl, Nat.zero_le _⟩

theorem Wire.takes_data (w : Wire) (v : Byte) : w.Takes (w.data v) (w.dev.takeData (v :: w.cur)) := by
  obtain ⟨hdev, hrx, hcur⟩ := data_takeData w v
  exact ⟨hdev, hrx, hcur⟩

/-- A first byte, run as the instruction it decodes to, is the beginning of its transaction by the rule (R68). -/
theorem runFetched_first (s s' : State) (b : Byte) :
    ∃ w, runFetched s (.wire .first b s') = .next (s'.putWire w) ∧
      s'.wire.Takes w (s'.wire.dev.take b s'.wire.cur) := by
  rw [take_eq_decode]
  rcases decodeWire_first_cases b with h | h | h | ⟨l, h⟩ | ⟨i, h⟩ | ⟨e, h⟩ <;> rw [runFetched, h]
  · exact ⟨_, rfl, s'.wire.takes_command _⟩
  · exact ⟨_, rfl, s'.wire.takes_command _⟩
  · exact ⟨_, rfl, s'.wire.takes_command _⟩
  · exact ⟨_, rfl, s'.wire.takes_command _⟩
  · exact ⟨_, rfl, s'.wire.takes_address i⟩
  · exact ⟨_, rfl, s'.wire.takes_unlisted⟩

/-- Settles O41: a step takes a data byte of the transaction begun, or the first byte of the next; either way what is left leads
to the same settled device. -/
theorem deviceStepsRefineWholeTransactions : Obligations.DeviceStepsRefineWholeTransactions := by
  intro s hidle hpending
  rw [step_of_idle hidle]
  cases hcur : s.wire.cur with
  | cons v rest =>
    obtain ⟨hdev, hrx, hlen⟩ := Wire.takes_data { s.wire with cur := rest } v
    rw [fetch_data hcur]
    refine ⟨_, rfl, ?_, rfl, ?_⟩
    · rw [putWire_wire, Wire.settled, Wire.settled, putWire_wire, hdev, hrx, hcur]
    · rw [putWire_wire, putWire_wire, hrx]
      simp only [List.length_cons] at hlen ⊢
      omega
  | nil =>
    obtain ⟨⟨b, rest⟩, q, hrx⟩ := List.exists_cons_of_ne_nil (hpending.resolve_left (absurd hcur))
    rw [fetch_first hcur hrx]
    obtain ⟨w, hrun, hdev, hq, hlen⟩ := runFetched_first s (s.putWire { s.wire with rx := q, cur := rest }) b
    refine ⟨_, hrun, ?_, rfl, ?_⟩
    · rw [putWire_wire, Wire.settled, Wire.settled, hdev, hq, hcur, hrx]
      rfl
    · rw [putWire_wire, hq, hrx]
      simp only [putWire_wire, List.length_nil, List.map_cons, List.sum_cons] at hlen ⊢
      omega

/-! ## Raw framing -/

/-- Settles O12: each of the three is one change of the wire, taken apart by the drive of the pins and the bracket. -/
theorem rawFramingOpensAndClosesTransactions : Obligations.RawFramingOpensAndClosesTransactions := by
  intro v s
  refine ⟨_, _, _, exec_start s, exec_wrbyte v s, exec_stop s, ?_⟩
  rw [runAll_startList, runAll_wrbyteList, runAll_byteList, runAll_stopList]
  dsimp only [putPort_wire]
  refine ⟨?_, ?_, ?_, ?_, ?_, ?_, ?_, ?_⟩
  · intro hd hbus
    simp only [Wire.start, hd, hbus]
  · intro hd bs hbus
    simp only [Wire.start, hd, hbus]
    rfl
  · intro hd
    simp only [Wire.start, hd]
    rfl
  · intro bs hbus
    cases hd : s.pins.driven <;> simp only [Wire.start, hbus] <;> exact ⟨rfl, Memory.read_nil⟩
  · intro hd bs hbus
    simp only [Wire.byte, hd, hbus, ackOf_eq_decide]
  · rintro (hd | hbus)
    · simp only [Wire.byte, hd]
      rfl
    · cases hd : s.pins.driven <;> simp only [Wire.byte, hbus] <;> rfl
  · intro hd b bs hbus hall
    simp only [Wire.stop, hd, hbus, if_pos (List.all_eq_true.mpr hall)]
  · rintro (hd | hbus | ⟨bs, hbus, rfl | ⟨x, hx, hnak⟩⟩)
    · simp only [Wire.stop, hd]
      rfl
    · cases hd : s.pins.driven <;> simp only [Wire.stop, hbus] <;> rfl
    · cases hd : s.pins.driven <;> simp only [Wire.stop, hbus] <;> rfl
    · have hall : bs.all (fun x => x.2) = false := List.all_eq_false.mpr ⟨x, hx, by simp [hnak]⟩
      cases bs with
      | nil => cases hx
      | cons b bs => cases hd : s.pins.driven <;> simp [Wire.stop, hbus, hall] <;> rfl

/-! ## What a step can run -/

/-- A step runs a list of entries, the ports and the sequencer apart, or changes only the wire. -/
theorem step_runs {s t : State} (h : step s = .next t) :
    (∃ ms p q, t = (runAll ms (s.putPort p)).putSeq q) ∨
      ∃ w, t = s.putWire w ∧ (s.wire.dev.mem.wf = true → w.dev.mem.wf = true) := by
  rcases step_cases h with ⟨-, -, rest, -, rfl⟩ | ⟨-, rfl⟩ | ⟨-, i, p, hhost, hexec⟩ | ⟨-, -, w, hw, hmem⟩
  · exact .inl ⟨rest, s.port, .idle, rfl⟩
  · exact .inl ⟨[], t.port, t.seq, rfl⟩
  · have ht := exec_eq_runAll_opList hhost hexec
    exact .inl ⟨_, p, t.seq, by rw [← ht]; rfl⟩
  · exact .inr ⟨w, hw, hmem⟩

/-- Settles O47: no entry and no wire byte writes the memory outside its canonical form. -/
theorem everyStepKeepsTheMemoryCanonical : Obligations.EveryStepKeepsTheMemoryCanonical := by
  intro s t hmem h
  rcases step_runs h with ⟨ms, p, q, rfl⟩ | ⟨w, rfl, hw⟩
  · exact runAll_mem_wf ms (s.putPort p) hmem
  · exact hw hmem

/-- Settles O48: no entry writes the build parameters or clears `INIT`. -/
theorem parametersAndReadinessPersist : Obligations.ParametersAndReadinessPersist := by
  intro s t h
  rcases step_runs h with ⟨ms, p, q, rfl⟩ | ⟨w, rfl, -⟩
  · exact ⟨runAll_cfg ms (s.putPort p), runAll_init ms (s.putPort p)⟩
  · exact ⟨rfl, id⟩

/-- Settles O51: an entry only adds to the trace. -/
theorem traceOnlyGrows : Obligations.TraceOnlyGrows := by
  intro s t h
  rcases step_runs h with ⟨ms, p, q, rfl⟩ | ⟨w, rfl, -⟩
  · exact runAll_trace ms (s.putPort p)
  · exact ⟨[], (List.append_nil _).symm⟩

end Sys2Proof.Machine
end

section
/-! Reset, completion and refusal (R208, R220): what the state at reset is, which operations complete there and in a ready state,
which are refused, and XFER as the host operations it stands for (R94). -/

namespace Sys2Proof.Machine

/-! ## Reset -/

/-- The build at reset is legal, whichever it is (log entry 2). -/
theorem Config.build_wf : Config.build.wf = true := by
  unfold Config.build
  split_ifs with h
  · exact h
  · decide

/-- Settles O1, by the fields of the state at reset. -/
theorem resetIsUninitialized : Obligations.ResetIsUninitialized :=
  ⟨rfl, rfl, rfl, rfl, rfl, rfl, rfl, rfl, Config.build_wf⟩

/-- Settles O45: what the invariant says of a ready state is said of none here, and nothing has reached the device. -/
theorem resetMeetsTheInvariant : Obligations.ResetMeetsTheInvariant where
  cfgLegal := Config.build_wf
  idle := rfl
  outputs := nofun
  quirk := nofun
  segments := nofun
  point := nofun
  memory := rfl
  unreached := fun _ => ⟨rfl, rfl, rfl⟩

/-- A host word placed where the next step fetches is run as the operation it decodes to; the controller is as before. -/
theorem step_withFetchWord (s : State) {n w : Nat} {i : Instr} (hw : w % 256 < 32) (hi : decodeOp (OpWord.ofBits w) = .ok i) :
    ∃ s', s'.ctl = s.ctl ∧ step (s.withFetchWord n w) = exec i s' := by
  rw [State.withFetchWord, if_pos hw, step_of_idle rfl, fetch_op rfl rfl rfl, runFetched, hi]
  refine ⟨_, ?_, rfl⟩
  rfl

/-- Settles O4: each of the seven words decodes to an operation, and the one that needs `INIT` is the one refused. -/
theorem firstOperationAfterReset : Obligations.FirstOperationAfterReset := by
  constructor
  · intro n hn
    have run : ∀ i, n % 256 < 32 → decodeOp (OpWord.ofBits n) = .ok i → (∀ s, ∃ t, exec i s = .next t) →
        ∃ t, step (State.reset.withFetchWord 8 n) = .next t := by
      intro i hw hi hexec
      obtain ⟨s', -, hstep⟩ := step_withFetchWord State.reset hw hi
      rw [hstep]
      exact hexec s'
    simp only [List.mem_cons, List.not_mem_nil, or_false] at hn
    rcases hn with rfl | rfl | rfl | rfl | rfl | rfl
    · exact run .start (by decide) (by decide) fun s => ⟨_, exec_start s⟩
    · exact run .stop (by decide) (by decide) fun s => ⟨_, exec_stop s⟩
    · exact run (.wrbyte 0) (by decide) (by decide) fun s => ⟨_, exec_wrbyte 0 s⟩
    · exact run .bitdelay (by decide) (by decide) fun s => ⟨_, exec_bitdelay s⟩
    · exact run (.lookup 0) (by decide) (by decide) fun s => ⟨_, exec_lookup 0 s⟩
    · exact run (.beginDisp 0 0) (by decide) (by decide) fun s => ⟨_, exec_begin 0 0⟩
  · obtain ⟨s', hctl, hstep⟩ :=
      step_withFetchWord State.reset (n := 8) (w := 0x09) (i := .dispoff) (by decide) (by decide)
    rw [hstep]
    exact whenReady_notReady (hctl ▸ rfl) _

/-! ## Refusals -/

/-- Settles O36: every operation but the six named is run only when ready. -/
theorem displayOperationsBeforeBeginAreRefused : Obligations.DisplayOperationsBeforeBeginAreRefused := by
  intro i s hinit hhost hmnemonic
  cases i with
  | wAuto | wFixed | wOff => cases hhost
  | wOn _ | wAddr _ | wData _ => cases hhost
  | start | stop | bitdelay => simp [Instr.mnemonic] at hmnemonic
  | wrbyte _ | lookup _ => simp [Instr.mnemonic] at hmnemonic
  | beginDisp _ _ => simp [Instr.mnemonic] at hmnemonic
  | sendcmd _ | dispbright _ | dispdp _ | disptest _ => exact whenReady_notReady hinit _
  | wrdigit _ _ | wrrun _ _ => exact whenReady_notReady hinit _
  | dispoff | dispclear => exact whenReady_notReady hinit _
  | dispchar _ _ _ | dispint8 _ _ _ | dispint12 _ _ _ | dispint16 _ _ _ => exact whenReady_notReady hinit _

/-- An operation of the other addressing mode is refused (R98). -/
theorem whenMode_other {m : AddrMode} {s : State} (h : s.cfg.mode ≠ m) (r : Result) : whenMode m s r = .refused .wrongMode :=
  if_neg h

section
variable {s : State} (hready : s.ctl.init = true)
include hready

theorem exec_wrdigit_autoIncrement (hmode : s.cfg.mode = .autoIncrement) (d : Digit) (v : Byte) :
    exec (.wrdigit d v) s = .refused .wrongMode :=
  (whenReady_ready hready _).trans (whenMode_other (by simp [hmode]) _)

theorem exec_wrrun_fixed (hmode : s.cfg.mode = .fixed) (d : Digit) (vs : List Byte) :
    exec (.wrrun d vs) s = .refused .wrongMode :=
  (whenReady_ready hready _).trans (whenMode_other (by simp [hmode]) _)

theorem exec_wrrun_outOfBounds (hmode : s.cfg.mode = .autoIncrement) {d : Digit} {vs : List Byte}
    (h : vs.length = 0 ∨ 4 < d.val + vs.length) : exec (.wrrun d vs) s = .refused .outOfBounds := by
  have hfits : ¬runFits d vs = true := by
    simp only [runFits, Bool.and_eq_true, decide_eq_true_eq]
    omega
  exact (whenReady_ready hready _).trans ((if_pos hmode).trans (if_neg hfits))

theorem exec_disptest_absent (htest : s.cfg.hasTest = false) (on : Bool) : exec (.disptest on) s = .refused .noTest :=
  (whenReady_ready hready _).trans (if_neg (by simp [htest]))

end

/-- Settles O37, clause by clause. -/
theorem foreignModeBoundsAndAbsentTestAreRefused : Obligations.ForeignModeBoundsAndAbsentTestAreRefused := by
  intro d v vs on s hready
  exact ⟨fun hmode => exec_wrdigit_autoIncrement hready hmode d v, fun hmode => exec_wrrun_fixed hready hmode d vs,
    fun hmode h => exec_wrrun_outOfBounds hready hmode h, fun htest => exec_disptest_absent hready htest on⟩

/-! ## Completion -/

/-- Settles O38: each instruction by the list it runs when ready. -/
theorem everyInstructionCompletesWhenReady : Obligations.EveryInstructionCompletesWhenReady := by
  intro i s hready hwf hfixed hauto htest
  cases i with
  | wAuto | wFixed | wOff => exact ⟨_, rfl⟩
  | wOn _ | wAddr _ | wData _ => exact ⟨_, rfl⟩
  | start => exact ⟨_, exec_start s⟩
  | stop => exact ⟨_, exec_stop s⟩
  | wrbyte v => exact ⟨_, exec_wrbyte v s⟩
  | bitdelay => exact ⟨_, exec_bitdelay s⟩
  | lookup idx => exact ⟨_, exec_lookup idx s⟩
  | sendcmd c => exact ⟨_, exec_sendcmd_ready hready c⟩
  | wrdigit d v => exact ⟨_, exec_wrdigit_ready hready (hfixed rfl) d v⟩
  | wrrun d vs => exact ⟨_, exec_wrrun_ready hready (hauto rfl) d vs hwf⟩
  | beginDisp n b => exact ⟨_, exec_begin n b⟩
  | dispoff => exact ⟨_, exec_dispoff_ready hready⟩
  | dispclear => exact ⟨_, exec_dispclear_ready hready⟩
  | dispbright l => exact ⟨_, exec_dispbright_ready hready l⟩
  | dispchar d v raw => exact ⟨_, exec_dispchar_ready hready d v raw⟩
  | dispint8 st v dec => exact ⟨_, exec_dispint8_ready hready st v dec⟩
  | dispint12 st v dec => exact ⟨_, exec_dispint12_ready hready st v dec⟩
  | dispint16 st v dec => exact ⟨_, exec_dispint16_ready hready st v dec⟩
  | dispdp on => exact ⟨_, exec_dispdp_ready hready on⟩
  | disptest on => exact ⟨_, exec_disptest_ready hready (htest rfl) on⟩

/-- Settles O17: LOOKUP puts a looked-up code on the port, and those of a legal table are SegmentCodes. -/
theorem lookupCodeHasBitSevenClear : Obligations.LookupCodeHasBitSevenClear := by
  intro idx s t hwf h
  rw [exec_lookup] at h
  injection h with h
  subst h
  exact lookupCode_lt s.cfg hwf idx.toNat

/-! ## XFER as host operations -/

theorem atDigit_of_lt {n : Nat} (h : n < 4) (op : Digit → Instr) : atDigit n op = .ok (op ⟨n, h⟩) := dif_pos h

/-- A digit above 3 fits no operand field (R91). -/
theorem atDigit_of_ge {n : Nat} (h : 4 ≤ n) (op : Digit → Instr) : atDigit n op = .error .strayOperandBits :=
  dif_neg (Nat.not_lt.mpr h)

/-- A refused operation ends the list. -/
theorem execOps_cons_of_refused {i : Instr} {s : State} {r : Refusal} (h : exec i s = .refused r) (rest : List Decoded) :
    execOps (.ok i :: rest) s = .refused r := by
  simp [execOps, h]

/-- The first WRDIGIT of a fixed XFER completes, and leaves the state ready and the build as it was. -/
theorem execOps_digitOps_cons {s : State} (hready : s.ctl.init = true) (hmode : s.cfg.mode = .fixed) (d : Digit) (v : Byte)
    (vs : List Byte) :
    execOps (digitOps d.val (v :: vs)) s = execOps (digitOps (d.val + 1) vs) (runAll (wrdigitList s.cfg d v) s) := by
  rw [digitOps, atDigit_of_lt d.isLt]
  exact execOps_cons_of_next (exec_wrdigit_ready hready hmode d v) _

/-- WRDIGITs of ascending digits run the list of XFER under Fixed (R94). -/
theorem execOps_digitOps (vs : List Byte) {s : State} (hready : s.ctl.init = true) (hmode : s.cfg.mode = .fixed) (d : Digit)
    (hend : d.val + vs.length ≤ 4) :
    execOps (digitOps d.val vs) s = .next (runAll (xferFixedList s.cfg d vs) s) := by
  induction vs generalizing s d with
  | nil => rfl
  | cons v vs ih =>
    have hcfg := runAll_cfg (wrdigitList s.cfg d v) s
    have hmode' := (congrArg Config.mode hcfg).trans hmode
    rw [execOps_digitOps_cons hready hmode, xferFixedList, runAll_append]
    cases vs with
    | nil => rfl
    | cons v' vs =>
      simp only [List.length_cons] at hend
      have hd : (d + 1).val = d.val + 1 := by
        rw [Fin.val_add, Fin.val_one]
        omega
      have hrest := ih (runAll_init _ _ hready) hmode' (d + 1) (by simp only [hd, List.length_cons]; omega)
      rwa [hd, hcfg] at hrest

/-- WRDIGITs that go past digit 3 are refused at the first that does (R59, log entry 15). -/
theorem execOps_digitOps_past (vs : List Byte) {s : State} (hready : s.ctl.init = true) (hmode : s.cfg.mode = .fixed) (n : Nat)
    (hpos : 1 ≤ vs.length) (hend : 4 < n + vs.length) :
    execOps (digitOps n vs) s = .refused (.badWord .strayOperandBits) := by
  induction vs generalizing s n with
  | nil => simp at hpos
  | cons v vs ih =>
    by_cases hn : n < 4
    · simp only [List.length_cons] at hend
      have hfirst := execOps_digitOps_cons hready hmode ⟨n, hn⟩ v vs
      rw [hfirst]
      exact ih (runAll_init _ _ hready) ((congrArg Config.mode (runAll_cfg _ s)).trans hmode) (n + 1) (by omega) (by omega)
    · rw [digitOps, atDigit_of_ge (Nat.not_lt.mp hn)]
      rfl

/-- Settles O22: under AutoIncrement the expansion is one WRRUN, under Fixed WRDIGITs. -/
theorem xferEqualsItsExpansion : Obligations.XferEqualsItsExpansion := by
  intro s vs hready hpos
  cases hmode : s.cfg.mode with
  | autoIncrement =>
    constructor
    · intro d hend
      rw [xferOps, atDigit_of_lt d.isLt, xferList, hmode]
      exact execOps_cons_of_next (exec_wrrun_ready hready hmode d vs (runFits_of_bounds hpos hend)) []
    · intro n hend
      by_cases hn : n < 4
      · rw [if_pos ⟨rfl, hn⟩, xferOps, atDigit_of_lt hn]
        exact execOps_cons_of_refused (exec_wrrun_outOfBounds hready hmode (.inr hend)) []
      · rw [if_neg fun h => hn h.2, xferOps, atDigit_of_ge (Nat.not_lt.mp hn)]
        rfl
  | fixed =>
    constructor
    · intro d hend
      rw [xferList, hmode]
      exact execOps_digitOps vs hready hmode d hend
    · intro n hend
      rw [if_neg (by simp)]
      exact execOps_digitOps_past vs hready hmode n hpos hend

end Sys2Proof.Machine
end

section
/-! Who writes what (R21 to R32, R52): the entries that write the controller, and which operations hold them; `NAK`. -/

namespace Sys2Proof.Machine

/-! ## The controller after an entry -/

/-- What an entry makes of the controller. -/
def Micro.onCtl (m : Micro) (c : Controller) : Controller :=
  match m with
  | .setDr i v => { c with dr := c.dr.set i v }
  | .setBr l => { c with br := l }
  | .setNd n => { c with nd := n }
  | .setQk q => { c with qk := q }
  | .setInit => { c with init := true }
  | _ => c

theorem run_ctl (m : Micro) (s : State) : (m.run s).ctl = m.onCtl s.ctl := by
  cases m with
  | drive =>
    simp only [Micro.run]
    split <;> rfl
  | _ => rfl

/-- Every entry but those of BEGIN alone. -/
def keepsConfig : Micro → Bool
  | .setInit | .setNd _ | .setQk _ => false
  | _ => true

/-- Every entry but `BR <- l`. -/
def keepsLevel : Micro → Bool
  | .setBr _ => false
  | _ => true

/-- Every entry but `DR[i] <- v`. -/
def keepsDigits : Micro → Bool
  | .setDr _ _ => false
  | _ => true

theorem covers_keepsConfig : Covers keepsConfig := ⟨fun _ => rfl, rfl, rfl, fun _ => rfl, rfl⟩

theorem covers_keepsLevel : Covers keepsLevel := ⟨fun _ => rfl, rfl, rfl, fun _ => rfl, rfl⟩

theorem covers_keepsDigits : Covers keepsDigits := ⟨fun _ => rfl, rfl, rfl, fun _ => rfl, rfl⟩

theorem covers_keepsNak : Covers keepsNak := ⟨fun _ => rfl, rfl, rfl, fun _ => rfl, rfl⟩

section
variable {ms : List Micro} (s : State)

theorem runAll_config (h : ms.all keepsConfig = true) :
    (runAll ms s).ctl.init = s.ctl.init ∧ (runAll ms s).ctl.nd = s.ctl.nd ∧ (runAll ms s).ctl.qk = s.ctl.qk := by
  have hentry : ∀ (m : Micro) (s : State), keepsConfig m = true →
      ((m.run s).ctl.init, (m.run s).ctl.nd, (m.run s).ctl.qk) = (s.ctl.init, s.ctl.nd, s.ctl.qk) := by
    intro m s hm
    rw [run_ctl]
    cases m with
    | setInit | setNd _ | setQk _ => cases hm
    | _ => rfl
  have hall := runAll_frame (fun s => (s.ctl.init, s.ctl.nd, s.ctl.qk)) keepsConfig hentry ms s h
  simpa only [Prod.mk.injEq] using hall

theorem runAll_level (h : ms.all keepsLevel = true) : (runAll ms s).ctl.br = s.ctl.br := by
  have hentry : ∀ (m : Micro) (s : State), keepsLevel m = true → (m.run s).ctl.br = s.ctl.br := by
    intro m s hm
    rw [run_ctl]
    cases m with
    | setBr _ => cases hm
    | _ => rfl
  exact runAll_frame (fun s => s.ctl.br) keepsLevel hentry ms s h

theorem runAll_digits (h : ms.all keepsDigits = true) : (runAll ms s).ctl.dr = s.ctl.dr := by
  have hentry : ∀ (m : Micro) (s : State), keepsDigits m = true → (m.run s).ctl.dr = s.ctl.dr := by
    intro m s hm
    rw [run_ctl]
    cases m with
    | setDr _ _ => cases hm
    | _ => rfl
  exact runAll_frame (fun s => s.ctl.dr) keepsDigits hentry ms s h

end

/-! ## The lists of the operations -/

section
variable {p : Micro → Bool} (h : Covers p)
include h

theorem Covers.dispdp (hd : ∀ i v, p (.setDr i v) = true) (cfg : Config) (qk on : Bool) :
    (dispdpList cfg qk on).all p = true := by
  cases qk with
  | false => rfl
  | true => exact h.show hd cfg 3 [dpCode cfg on]

theorem Covers.dispclear (hd : ∀ i v, p (.setDr i v) = true) (cfg : Config) (nd : DigitCount) (qk : Bool) :
    (dispclearList cfg nd qk).all p = true := by
  rw [dispclearList, List.all_append, h.show hd, h.dispdp hd, Bool.and_self]

theorem Covers.dispbright (hbr : ∀ l, p (.setBr l) = true) (l : Byte) : (dispbrightList l).all p = true := by
  rw [dispbrightList, List.all_cons, hbr, h.sendcmd, Bool.and_self]

theorem Covers.disptest (cfg : Config) (ctl : Controller) (on : Bool) : (disptestList cfg ctl on).all p = true := by
  unfold disptestList
  cases on <;> cases ctl.qk <;> simp [h.xfer, -List.all_eq_true]

end

/-- An operation that is none of the writers of `DR` holds no entry that writes it (R27). -/
theorem opList_keepsDigits {i : Instr}
    (hi : i.mnemonic ∉ ["BEGIN", "DISPCLEAR", "DISPCHAR", "DISPINT8", "DISPINT12", "DISPINT16", "DISPDP"]) (s : State) :
    (opList i s).all keepsDigits = true := by
  cases i with
  | wAuto | wFixed | wOff | start | stop | bitdelay => rfl
  | wOn _ | wAddr _ | wData _ | wrbyte _ | lookup _ => rfl
  | sendcmd c => exact covers_keepsDigits.sendcmd c
  | wrdigit d v => exact covers_keepsDigits.wrdigit s.cfg d v
  | wrrun d vs => exact covers_keepsDigits.wrrun s.cfg d vs
  | dispoff => exact covers_keepsDigits.sendcmd dispOff
  | dispbright l => exact covers_keepsDigits.dispbright (fun _ => rfl) l
  | disptest on => exact covers_keepsDigits.disptest s.cfg s.ctl on
  | beginDisp _ _ | dispclear | dispdp _ => simp [Instr.mnemonic] at hi
  | dispchar _ _ _ | dispint8 _ _ _ | dispint12 _ _ _ | dispint16 _ _ _ => simp [Instr.mnemonic] at hi

/-- A completed instruction has run its list, or is a wire byte and has changed only the wire. -/
theorem exec_runs {i : Instr} {s t : State} (h : exec i s = .next t) :
    (isHostOp i = true ∧ t = runAll (opList i s) s) ∨ isHostOp i = false ∧ ∃ w, t = s.putWire w := by
  cases hhost : isHostOp i with
  | true => exact .inl ⟨rfl, exec_eq_runAll_opList hhost h⟩
  | false => exact .inr ⟨rfl, exec_wire (by simp [hhost]) h⟩

/-! ## The obligations -/

/-- Settles O49: the entries that write the configuration and the result stand in the lists of their writers only. -/
theorem onlyTheirWritersWriteConfigurationAndResult : Obligations.OnlyTheirWritersWriteConfigurationAndResult := by
  intro i s t h
  refine ⟨fun hbegin => ?_, fun hresult => ?_, fun hwrbyte => ?_⟩
  · rcases exec_runs h with ⟨-, rfl⟩ | ⟨-, w, rfl⟩
    · have hlist := covers_keepsConfig.op i s (fun _ _ => rfl) (.inr fun _ => rfl) (.inr rfl) rfl hbegin (.inr fun _ => rfl)
      obtain ⟨hinit, hnd, hqk⟩ := runAll_config s hlist
      refine ⟨hinit, hnd, hqk, fun hbright => runAll_level s ?_⟩
      exact covers_keepsLevel.op i s (fun _ _ => rfl) (.inr fun _ => rfl) (.inr rfl) rfl hbegin (.inl hbright)
    · exact ⟨rfl, rfl, rfl, fun _ => rfl⟩
  · rcases exec_runs h with ⟨-, rfl⟩ | ⟨-, w, rfl⟩
    · simp only [List.mem_cons, List.not_mem_nil, or_false, not_or] at hresult
      exact runAll_port _ s (opList_keepsPort i s hresult.1 hresult.2)
    · rfl
  · cases i with
    | wrbyte v =>
      rw [exec_wrbyte, runAll_wrbyteList] at h
      injection h with h
      subst h
      cases hack : ackOf s.env.peek with
      | true => exact .inr (by rw [putPort_port]; rfl)
      | false => exact .inl (by rw [putPort_port]; rfl)
    | _ => simp [Instr.mnemonic] at hwrbyte

/-- Settles O50: no other list holds an entry that writes `DR`. -/
theorem onlyTheListedOperationsWriteTheShadow : Obligations.OnlyTheListedOperationsWriteTheShadow := by
  intro i s t h hi
  rcases exec_runs h with ⟨-, rfl⟩ | ⟨-, w, rfl⟩
  · exact runAll_digits s (opList_keepsDigits hi s)
  · rfl

/-! ## `NAK` -/

/-- What BEGIN does between `NAK <- 0` and its first transaction (R171). -/
def configList (cfg : Config) (n : Byte) : List Micro :=
  [.setNd (requestedCount n), .setQk (quirkFlag cfg (requestedCount n)), .busGlitch, .dir .clk .out, .dir .dio .out, .setInit]

/-- What BEGIN does after `NAK <- 0`. -/
def beginRest (cfg : Config) (n b : Byte) : List Micro :=
  configList cfg n ++ dispclearList cfg (requestedCount n) (quirkFlag cfg (requestedCount n)) ++ dispbrightList b

theorem beginList_eq (cfg : Config) (n b : Byte) : beginList cfg n b = .clrNak :: beginRest cfg n b := rfl

/-- After `NAK <- 0` BEGIN does not clear it again. -/
theorem beginRest_keepsNak (cfg : Config) (n b : Byte) : (beginRest cfg n b).all keepsNak = true := by
  have hconfig : (configList cfg n).all keepsNak = true := rfl
  rw [beginRest, List.all_append, List.all_append, hconfig, covers_keepsNak.dispclear fun _ _ => rfl,
    covers_keepsNak.dispbright fun _ => rfl]
  rfl

/-- Settles O52: from the state before, or from `NAK = 0` in BEGIN, `NAK` tells of the samples among the new events. -/
theorem nakIsSticky : Obligations.NakIsSticky := by
  intro i s t h
  rcases exec_runs h with ⟨-, rfl⟩ | ⟨hwire, w, rfl⟩
  · refine ⟨fun hbegin => ?_, fun hbegin => ?_⟩
    · have hlist := covers_keepsNak.op i s (fun _ _ => rfl) (.inr fun _ => rfl) (.inr rfl) rfl hbegin (.inr fun _ => rfl)
      obtain ⟨es, htrace, hnak⟩ := runAll_nak _ s hlist
      rw [htrace, hnak, List.drop_left]
      exact ⟨fun hs => by rw [hs, Bool.true_or], fun hs => by rw [hs, Bool.false_or, decide_eq_true_eq]⟩
    · cases i with
      | beginDisp n b =>
        obtain ⟨es, htrace, hnak⟩ := runAll_nak _ (Micro.clrNak.run s) (beginRest_keepsNak s.cfg n b)
        have hs : (Micro.clrNak.run s).trace = s.trace := rfl
        have hcleared : (Micro.clrNak.run s).eng.nak = false := rfl
        rw [opList, beginList_eq, runAll_cons, htrace, hnak, hs, hcleared, List.drop_left, Bool.false_or, decide_eq_true_eq]
      | _ => simp [Instr.mnemonic] at hbegin
  · refine ⟨fun _ => ?_, fun hbegin => ?_⟩
    · rw [putWire_trace, List.drop_length]
      exact ⟨id, fun hs => by rw [putWire_eng, hs]; simp⟩
    · cases i with
      | beginDisp n b => cases hwire
      | _ => simp [Instr.mnemonic] at hbegin

end Sys2Proof.Machine
end

section
/-! An operation seen entry by entry (R35, R230; log entry 11): stopped and finished, counted, and interrupted by another user of
the pins. -/

namespace Sys2Proof.Machine

/-- A step finishes the operation in progress. -/
theorem step_of_busy {s : State} {i : Instr} {n : Nat} {rest : List Micro} (h : s.seq = .busy i n rest) :
    step s = .next (finish rest s) := by
  rw [step, h]

theorem seqAt_of_ne_nil (i : Instr) (n : Nat) {rest : List Micro} (h : rest ≠ []) : seqAt i n rest = .busy i n rest := by
  cases rest with
  | nil => exact absurd rfl h
  | cons m ms => rfl

/-- After k entries of an operation: the entries run, the rest left, and as many events as the sequencer says. -/
theorem ticks_launch (i : Instr) (s : State) {k : Nat} (hk : k ≤ (opList i s).length) :
    ∃ n, ticks k (launch i s) = (runAll ((opList i s).take k) s).putSeq (seqAt i n ((opList i s).drop k)) ∧
      (ticks k (launch i s)).trace.length = s.trace.length + n := by
  obtain ⟨n, hticks, hn, hle⟩ := ticks_eq i k (launch i s) 0 (opList i s) rfl hk
  refine ⟨n, ?_, ?_⟩
  · rw [hticks, launch, runAll_putSeq]
    rfl
  · have hlaunch : (launch i s).trace = s.trace := rfl
    rw [hlaunch] at hn hle
    omega

/-- Once all entries have run the sequencer is idle and stays so. -/
theorem ticks_launch_idle (i : Instr) (s : State) {k : Nat} (hk : (opList i s).length ≤ k) :
    (ticks k (launch i s)).seq = .idle := by
  obtain ⟨n, hticks, -⟩ := ticks_launch i s (le_refl (opList i s).length)
  have hidle : (ticks (opList i s).length (launch i s)).seq = .idle := by
    rw [hticks, putSeq_seq, List.drop_length]
    rfl
  obtain ⟨j, rfl⟩ := Nat.exists_eq_add_of_le hk
  rw [ticks_add, ticks_idle j _ hidle, hidle]

/-- While an operation is in progress it is the one launched, some of its entries have run and the rest is left. -/
theorem ticks_launch_busy {i j : Instr} {s : State} {k n : Nat} {rest : List Micro}
    (h : (ticks k (launch i s)).seq = .busy j n rest) :
    j = i ∧ rest = (opList i s).drop k ∧ (∃ q, ticks k (launch i s) = (runAll ((opList i s).take k) s).putSeq q) ∧
      (ticks k (launch i s)).trace.length = s.trace.length + n := by
  have hk : k ≤ (opList i s).length := by
    by_contra hk
    rw [ticks_launch_idle i s (Nat.le_of_not_le hk)] at h
    cases h
  obtain ⟨n', hticks, hlen⟩ := ticks_launch i s hk
  rw [hticks, putSeq_seq] at h
  have hne : (opList i s).drop k ≠ [] := by
    intro hnil
    rw [hnil] at h
    cases h
  rw [seqAt_of_ne_nil i n' hne] at h
  injection h with hi hn hrest
  exact ⟨hi.symm, hrest.symm, ⟨_, hticks⟩, hn ▸ hlen⟩

/-- Settles O59: the events of the entries that have run are those counted. -/
theorem sequencerCountsEmittedEvents : Obligations.SequencerCountsEmittedEvents := by
  intro i j s k n rest _ h
  obtain ⟨hj, -, -, hlen⟩ := ticks_launch_busy h
  exact ⟨hj, hlen⟩

/-- Settles O58: the entries run and those left are together the operation's list. -/
theorem stoppedOperationFinishesTheSame : Obligations.StoppedOperationFinishesTheSame := by
  intro i s t k hidle hhost h hk
  have ht := exec_eq_runAll_opList hhost h
  have hseq : t.seq = .idle := by rw [ht, runAll_seq, hidle]
  obtain ⟨n, hticks, -⟩ := ticks_launch i s hk.le
  have hbusy : (ticks k (launch i s)).seq = .busy i n ((opList i s).drop k) := by
    rw [hticks, putSeq_seq, seqAt_of_ne_nil]
    exact fun hnil => absurd (List.drop_eq_nil_iff.mp hnil) (Nat.not_le.mpr hk)
  rw [step_of_busy hbusy, hticks, finish, runAll_putSeq, ← runAll_append, List.take_append_drop, ← ht, ← hseq]
  rfl

/-! ## Another agent's call -/

/-- A direction, write or read call by another agent loses the device, and the block does not notice. -/
theorem foreign_frame (s : State) {p : Pin} {l : Level} {m : Dir} {e : Event} (he : e ∈ [.dir p m, .wr p l, .rd p l]) :
    (s.foreign e).wire = .lost ∧ (s.foreign e).ctl = s.ctl ∧ (s.foreign e).eng = s.eng ∧ (s.foreign e).trace = s.trace ∧
      (s.foreign e).seq = s.seq := by
  simp only [List.mem_cons, List.not_mem_nil, or_false] at he
  rcases he with rfl | rfl | rfl <;> exact ⟨rfl, rfl, rfl, rfl, rfl⟩

/-- The entries that emit no event. -/
def silent : Micro → Bool
  | .dir _ _ | .wr _ _ | .wrBit | .dly | .sample | .drive => false
  | _ => true

theorem runAll_silent {ms : List Micro} (h : ms.all silent = true) (s : State) : (runAll ms s).trace = s.trace := by
  have hentry : ∀ (m : Micro) (s : State), silent m = true → (m.run s).trace = s.trace := by
    intro m s hm
    cases m with
    | dir _ _ | wr _ _ => cases hm
    | wrBit | dly | sample | drive => cases hm
    | _ => rfl
  exact runAll_frame (fun s => s.trace) silent hentry ms s h

/-- An operation of one transaction: silent entries, the last of which begins the transaction, then no further START. -/
theorem opList_one_transaction {i : Instr} {c : Byte} (hi : i ∈ [.sendcmd c, .dispoff, .dispbright c]) (s : State) :
    ∃ xs ms, opList i s = xs ++ ms ∧ xs.all silent = true ∧ ms.all opensNothing = true := by
  simp only [List.mem_cons, List.not_mem_nil, or_false] at hi
  rcases hi with rfl | rfl | rfl
  · exact ⟨[.busStart], _, rfl, rfl, rfl⟩
  · exact ⟨[.busStart], _, rfl, rfl, rfl⟩
  · exact ⟨[.setBr (levelBits c), .busStart], _, rfl, rfl, rfl⟩

/-- Once an operation of one transaction has emitted an event, nothing of what is left opens a transaction. -/
theorem rest_opensNothing {i : Instr} {c : Byte} (hi : i ∈ [.sendcmd c, .dispoff, .dispbright c]) {s : State} {k : Nat}
    (hgrown : (runAll ((opList i s).take k) s).trace ≠ s.trace) : ((opList i s).drop k).all opensNothing = true := by
  obtain ⟨xs, ms, hlist, hxs, hms⟩ := opList_one_transaction hi s
  have hk : xs.length ≤ k := by
    by_contra hk
    refine hgrown (runAll_silent ?_ s)
    rw [hlist, List.take_append_of_le_length (Nat.le_of_not_le hk), List.all_eq_true]
    exact fun m hm => List.all_eq_true.mp hxs m (List.mem_of_mem_take hm)
  rw [hlist, List.drop_append, List.drop_eq_nil_of_le hk, List.nil_append, List.all_eq_true]
  exact fun m hm => List.all_eq_true.mp hms m (List.mem_of_mem_drop hm)

/-- Settles O60: the call loses the device, and what is left of the interrupted transaction does not begin another. -/
theorem anotherPinUserLosesTheDevice : Obligations.AnotherPinUserLosesTheDevice := by
  intro s p l m e he
  obtain ⟨hwire, hctl, heng, htrace, hseq⟩ := foreign_frame s he
  refine ⟨?_, by rw [hwire]; rfl, hctl, heng, htrace, hseq⟩
  intro i j c k n rest hi hidle hbusy hn
  obtain ⟨-, hrest, ⟨q, hticks⟩, hlen⟩ := ticks_launch_busy hbusy
  obtain ⟨hlost, -, -, -, hbusy'⟩ := foreign_frame (ticks k (launch i s)) he
  refine ⟨_, step_of_busy (hbusy'.trans hbusy), ?_⟩
  have hgrown : (runAll ((opList i s).take k) s).trace ≠ s.trace := by
    intro hsame
    rw [hticks, putSeq_trace, hsame] at hlen
    omega
  have hopens := rest_opensNothing hi hgrown
  rw [finish, putSeq_wire, hrest, runAll_lost _ _ hopens hlost]
  rfl

end Sys2Proof.Machine
end

section
/-! What is sent and what is left (R123, R163, R181, R225): DISPTEST, the state when BEGIN has returned, and that the answers of
the environment never change what is sent. -/

namespace Sys2Proof.Machine

/-! ## DISPTEST -/

/-- The codes DISPTEST sends to the configured digits. -/
def testCodes (ctl : Controller) (on : Bool) : List Byte :=
  if on then List.replicate ctl.nd.toNat allOnCode else shownCodes ctl.nd ctl.dr

/-- The code it sends to digit 3 with the quirk. -/
def testPoint (cfg : Config) (ctl : Controller) (on : Bool) : Byte := if on then cfg.dpOnCode else ctl.dr.d3

theorem disptestList_eq (cfg : Config) (ctl : Controller) (on : Bool) :
    disptestList cfg ctl on =
      xferList cfg 0 (testCodes ctl on) ++ (if ctl.qk then xferList cfg 3 [testPoint cfg ctl on] else []) := by
  cases on <;> rfl

theorem testCodes_ne_nil (ctl : Controller) (on : Bool) : testCodes ctl on ≠ [] := by
  cases on
  · exact shownCodes_ne_nil ctl.nd ctl.dr
  · exact replicate_ne_nil ctl.nd allOnCode

/-- DISPTEST sends its codes, and the point's with the quirk (R181). -/
theorem sends_disptest (s : State) (on : Bool) :
    Sends s (runAll (disptestList s.cfg s.ctl on) s)
      (xferTransactions s.cfg 0 (testCodes s.ctl on) ++
        (if s.ctl.qk = true then xferTransactions s.cfg 3 [testPoint s.cfg s.ctl on] else [])) := by
  rw [disptestList_eq]
  exact sends_xfer_point s _ (testCodes_ne_nil s.ctl on) s.ctl.qk _

/-- After it `DADDR` is what its last XFER leaves (R157). -/
theorem disptest_daddr (s : State) (on : Bool) :
    (runAll (disptestList s.cfg s.ctl on) s).eng.daddr =
      if s.ctl.qk = true then xferDaddr s.cfg 3 [testPoint s.cfg s.ctl on] else xferDaddr s.cfg 0 (testCodes s.ctl on) := by
  rw [disptestList_eq, runAll_append]
  cases s.ctl.qk with
  | false => exact (sends_xfer s s.cfg 0 _ (testCodes_ne_nil s.ctl on)).2
  | true => exact (sends_xfer _ s.cfg 3 _ (List.cons_ne_nil _ _)).2

/-- Settles O34: what DISPTEST sends and the `DADDR` it leaves, its codes written out. -/
theorem disptestSendsAllOnOrTheShadow : Obligations.DisptestSendsAllOnOrTheShadow := by
  intro on s hready htest
  exact ⟨_, testCodes s.ctl on, testPoint s.cfg s.ctl on, exec_disptest_ready hready htest on, rfl, rfl, sends_disptest s on,
    disptest_daddr s on⟩

/-! ## After BEGIN -/

/-- A blanked digit reads blank, and a slot that no run wrote what it held. -/
theorem blanked_get (q : Quad Byte) (nd : DigitCount) (d : Digit) :
    (Quad.setRun q 0 (List.replicate nd.toNat 0x00)).get d = if d.val < nd.toNat then 0x00 else q.get d := by
  have hnd := digitCount_bounds nd
  rw [Quad.get_setRun _ _ _ (by simp only [Fin.val_zero, List.length_replicate]; omega)]
  simp

/-- The digit registers after BEGIN: the configured ones blank, and slot 3 off with the quirk (R171). -/
def beginDigits (q : Quad Byte) (nd : DigitCount) (qk : Bool) : Quad Byte :=
  if qk = true then (Quad.setRun q 0 (List.replicate nd.toNat 0x00)).set 3 0x00
  else Quad.setRun q 0 (List.replicate nd.toNat 0x00)

theorem beginDigits_configured (q : Quad Byte) {nd : DigitCount} (qk : Bool) {d : Digit} (h : d.val < nd.toNat) :
    (beginDigits q nd qk).get d = 0x00 := by
  unfold beginDigits
  split_ifs
  · rw [Quad.get_set, blanked_get, if_pos h, ite_self]
  · rw [blanked_get, if_pos h]

theorem beginDigits_point (q : Quad Byte) (nd : DigitCount) : (beginDigits q nd true).get 3 = 0x00 := by
  rw [beginDigits, if_pos rfl, Quad.get_set, if_pos rfl]

theorem beginDigits_unused (q : Quad Byte) {nd : DigitCount} {d : Digit} (h : nd.toNat ≤ d.val) :
    (beginDigits q nd false).get d = q.get d := by
  rw [beginDigits, if_neg Bool.false_ne_true, blanked_get, if_neg (Nat.not_lt.mpr h)]

/-- What BEGIN leaves in the controller (R171). -/
theorem begin_ctl (n b : Byte) (s : State) :
    (runAll (beginList s.cfg n b) s).ctl =
      { init := true, nd := requestedCount n, br := levelBits b, qk := quirkFlag s.cfg (requestedCount n),
        dr := beginDigits s.ctl.dr (requestedCount n) (quirkFlag s.cfg (requestedCount n)) } := by
  obtain ⟨dr, hdr, hsends, -⟩ := sends_begin n b s
  rw [hsends.ctl, hdr]
  rfl

/-- BEGIN ends with the transaction of DISPBRIGHT: an acknowledgement phase, whose answer `ACK` holds, and a STOP. -/
theorem begin_ends_with_answer (n b : Byte) (s : State) :
    ∃ es a, (runAll (beginList s.cfg n b) s).trace = s.trace ++ es ++ ackEvents s.cfg.tBit a ++ stopEvents ∧
      (runAll (beginList s.cfg n b) s).eng.ack = decide (a = .low) := by
  rw [beginList_eq, beginRest, runAll_cons, runAll_append]
  set u := runAll (configList s.cfg n ++ dispclearList s.cfg (requestedCount n) (quirkFlag s.cfg (requestedCount n)))
    (Micro.clrNak.run s) with hu
  obtain ⟨hsends, -⟩ := sends_dispbright u b
  have htrace := hsends.trace
  have hack := hsends.ack
  obtain ⟨es, hes⟩ : ∃ es, u.trace = s.trace ++ es := runAll_trace _ (Micro.clrNak.run s)
  have hcfg : u.cfg = s.cfg := runAll_cfg _ (Micro.clrNak.run s)
  refine ⟨es ++ startEvents ++ (List.range 8).flatMap fun k => bitEvents ((onByte (levelBits b)).getLsbD k), u.env.peek, ?_, ?_⟩
  · rw [htrace]
    simp [sentEvents, transactionEvents, answered, Env.answersFor, byteEvents, hes, hcfg]
  · simpa [Env.answersFor, ackOf_eq_decide] using hack

/-- `DADDR` after XFER under Fixed is the physical index of the last digit sent. -/
theorem xferDaddr_fixed {cfg : Config} (hmode : cfg.mode = .fixed) {d e : Digit} {vs : List Byte}
    (he : e.val = d.val + vs.length - 1) : xferDaddr cfg d vs = phys cfg e := by
  have hlast : xferDaddr cfg d vs = phys cfg (Fin.ofNat 4 e.val) := by rw [xferDaddr, hmode, he]
  rw [hlast, Fin.ofNat_val_eq_self]

/-- Under AutoIncrement it has moved past it. -/
theorem xferDaddr_autoIncrement {cfg : Config} (hmode : cfg.mode = .autoIncrement) (d : Digit) (vs : List Byte) :
    (xferDaddr cfg d vs).val = (d.val + vs.length) % 4 := by
  rw [xferDaddr, hmode]
  rfl

/-- Settles O24: the controller, the engine and the pins BEGIN leaves, `DADDR` by the last of its XFERs, and the answer at its
end. -/
theorem launchPremisesHoldAfterBegin : Obligations.LaunchPremisesHoldAfterBegin := by
  intro n b s t hidle h
  rw [exec_begin] at h
  injection h with h
  subst h
  obtain ⟨dr, -, hsends, hdaddr⟩ := sends_begin n b s
  have hctl := begin_ctl n b s
  have hnd := digitCount_bounds (requestedCount n)
  have hclk := congrArg Pair.clk hsends.dirr
  have hdio := congrArg Pair.dio hsends.dirr
  have hlclk := congrArg Pair.clk hsends.lat
  have hldio := congrArg Pair.dio hsends.lat
  have hinit := congrArg Controller.init hctl
  have hndt := congrArg Controller.nd hctl
  have hqkt := congrArg Controller.qk hctl
  have hdrt := congrArg Controller.dr hctl
  have hbrt := congrArg Controller.br hctl
  dsimp only at hinit hndt hqkt hdrt hbrt
  have hseqt := hsends.seq.trans hidle
  rw [hndt, hqkt, hdrt, hbrt, hdaddr]
  refine ⟨hinit, hnd.1, hnd.2, fun hqk => ?_, fun d hd => ?_, fun hqk => ?_, ?_, ⟨hlclk, hldio, hclk, hdio⟩, hseqt, hsends.sr,
    hsends.bc, fun d hmode hd => ?_, fun hmode => ?_, begin_ends_with_answer n b s, fun d hd hqk => ?_⟩
  · rw [quirkFlag_eq, Bool.and_eq_true, decide_eq_true_eq] at hqk
    exact hqk.2
  · exact beginDigits_configured _ _ hd
  · rw [hqk]
    exact beginDigits_point _ _
  · rw [levelBits, BitVec.toNat_setWidth]
  · cases hqk : quirkFlag s.cfg (requestedCount n) with
    | true => exact xferDaddr_fixed hmode (by simpa [hqk] using hd)
    | false => exact xferDaddr_fixed hmode (by simpa [hqk] using hd)
  · cases hqk : quirkFlag s.cfg (requestedCount n) with
    | true => exact xferDaddr_autoIncrement hmode 3 [0x00]
    | false =>
      rw [if_neg Bool.false_ne_true, if_neg Bool.false_ne_true, xferDaddr_autoIncrement hmode]
      simp
  · rw [hqk]
    exact beginDigits_unused _ hd

/-! ## The answers of the environment -/

/-- In a build with this delay a list emits, from every state and with every answers, the events of these transactions, and takes
an answer for each byte. -/
def Emits (tBit : Nat) (ms : List Micro) (txs : List (List Byte)) : Prop :=
  ∀ s : State, s.cfg.tBit = tBit →
    (runAll ms s).trace = s.trace ++ sentEvents tBit s.env txs ∧ (runAll ms s).env = s.env.after txs.flatten.length

section
variable {tBit : Nat}

theorem emits_of_sends {ms : List Micro} {txs : List (List Byte)} (h : ∀ s, Sends s (runAll ms s) txs) :
    Emits tBit ms txs := by
  rintro s rfl
  exact ⟨(h s).trace, (h s).env⟩

/-- Entries that touch the controller alone emit nothing. -/
theorem emits_nothing {ms : List Micro} (h : ∀ s, ∃ c, runAll ms s = s.putCtl c) : Emits tBit ms [] := by
  intro s _
  obtain ⟨c, hc⟩ := h s
  rw [hc]
  exact ⟨(List.append_nil _).symm, rfl⟩

theorem Emits.append {xs ys : List Micro} {txs txs' : List (List Byte)} (hx : Emits tBit xs txs) (hy : Emits tBit ys txs') :
    Emits tBit (xs ++ ys) (txs ++ txs') := by
  intro s hs
  obtain ⟨htrace, henv⟩ := hx s hs
  obtain ⟨htrace', henv'⟩ := hy (runAll xs s) (by rw [runAll_cfg, hs])
  rw [runAll_append, htrace', henv', htrace, henv, sentEvents_append, List.append_assoc, ← after_add, List.flatten_append,
    List.length_append]
  exact ⟨rfl, rfl⟩

theorem emits_sendcmd (c : Byte) : Emits tBit (sendcmdList c) [[c]] := emits_of_sends fun s => (sends_sendcmd s c).1

theorem emits_xfer (cfg : Config) (d : Digit) {vs : List Byte} (hvs : vs ≠ []) :
    Emits tBit (xferList cfg d vs) (xferTransactions cfg d vs) :=
  emits_of_sends fun s => (sends_xfer s cfg d vs hvs).1

theorem emits_show (cfg : Config) (d : Digit) {vs : List Byte} (hvs : vs ≠ []) :
    Emits tBit (showList cfg d vs) (xferTransactions cfg d vs) :=
  (emits_nothing fun s => ⟨_, runAll_setRunList s d vs⟩).append (emits_xfer cfg d hvs)

theorem emits_dispdp (cfg : Config) (qk on : Bool) : ∃ txs, Emits tBit (dispdpList cfg qk on) txs := by
  cases qk with
  | false => exact ⟨[], emits_nothing fun s => ⟨s.ctl, rfl⟩⟩
  | true => exact ⟨_, emits_show cfg 3 (List.cons_ne_nil _ _)⟩

theorem emits_dispclear (cfg : Config) (nd : DigitCount) (qk : Bool) : ∃ txs, Emits tBit (dispclearList cfg nd qk) txs := by
  obtain ⟨txs, hpoint⟩ := emits_dispdp cfg qk false
  exact ⟨_, (emits_show cfg 0 (replicate_ne_nil nd blankCode)).append hpoint⟩

theorem emits_dispbright (l : Byte) : Emits tBit (dispbrightList l) [[onByte (levelBits l)]] :=
  (emits_nothing (ms := [.setBr (levelBits l)]) fun _ => ⟨_, rfl⟩).append (emits_sendcmd _)

theorem fieldCodes_ne_nil (cfg : Config) (dec : Bool) (w : Nat) {m : Nat} (hm : m ≠ 0) : fieldCodes cfg dec w m ≠ [] :=
  List.ne_nil_of_length_pos (by rw [fieldCodes_length]; omega)

theorem emits_field (cfg : Config) (nd : DigitCount) {m : Nat} (hm : m ≠ 0) (st : Byte) (dec : Bool) (w : Nat) :
    ∃ txs, Emits tBit (fieldList cfg nd m st dec w) txs := by
  unfold fieldList
  split_ifs
  · exact ⟨[], emits_nothing fun s => ⟨s.ctl, rfl⟩⟩
  · exact ⟨_, emits_show cfg _ (fieldCodes_ne_nil cfg dec w hm)⟩

theorem emits_disptest (cfg : Config) (ctl : Controller) (on : Bool) : ∃ txs, Emits tBit (disptestList cfg ctl on) txs := by
  rw [disptestList_eq]
  cases ctl.qk with
  | false => exact ⟨_, (emits_xfer cfg 0 (testCodes_ne_nil ctl on)).append (emits_nothing fun s => ⟨s.ctl, rfl⟩)⟩
  | true => exact ⟨_, (emits_xfer cfg 0 (testCodes_ne_nil ctl on)).append (emits_xfer cfg 3 (List.cons_ne_nil _ _))⟩

end

/-- Running the list in this state, with any answers, adds events that read as these byte lists and these bytes (R125). -/
def ReadsAs (ms : List Micro) (s : State) (lists : List (List Byte)) (bytes : List Byte) : Prop :=
  ∀ e : Env, byteLists ((runAll ms (s.putEnv e)).trace.drop s.trace.length) = lists ∧
    (traceBytes ((runAll ms (s.putEnv e)).trace.drop s.trace.length)).map (fun x => x.1) = bytes

theorem readsAs_of_trace {ms : List Micro} {s : State} {lists : List (List Byte)} {bytes : List Byte}
    (h : ∀ e, ∃ es, (runAll ms (s.putEnv e)).trace = s.trace ++ es ∧ byteLists es = lists ∧
      (traceBytes es).map (fun x => x.1) = bytes) : ReadsAs ms s lists bytes := by
  intro e
  obtain ⟨es, htrace, hread⟩ := h e
  rwa [htrace, List.drop_left]

/-- What is emitted as transactions is read as those transactions. -/
theorem Emits.readsAs {ms : List Micro} {s : State} {txs : List (List Byte)} (h : Emits s.cfg.tBit ms txs) :
    ReadsAs ms s txs txs.flatten :=
  readsAs_of_trace fun e => ⟨_, (h (s.putEnv e) rfl).1, byteLists_sentEvents _ _ _⟩

/-- The two directions BEGIN begins with are no part of any byte (R125). -/
theorem read_begin_directions (tBit : Nat) (e : Env) (txs : List (List Byte)) :
    byteLists (.dir .clk .out :: .dir .dio .out :: sentEvents tBit e txs) = txs ∧
      (traceBytes (.dir .clk .out :: .dir .dio .out :: sentEvents tBit e txs)).map (fun x => x.1) = txs.flatten :=
  byteLists_sentEvents tBit e txs

/-- So is what BEGIN emits, after its two directions. -/
theorem readsAs_begin (s : State) (n b : Byte) : ∃ lists bytes, ReadsAs (beginList s.cfg n b) s lists bytes := by
  obtain ⟨txs, hclear⟩ :=
    emits_dispclear (tBit := s.cfg.tBit) s.cfg (requestedCount n) (quirkFlag s.cfg (requestedCount n))
  have hsend := hclear.append (emits_dispbright b)
  refine ⟨_, _, readsAs_of_trace fun e => ⟨_, ?_, read_begin_directions s.cfg.tBit e (txs ++ [[onByte (levelBits b)]])⟩⟩
  have hbegin := runAll_beginList n b (s.putEnv e)
  rw [← runAll_append, putEnv_cfg] at hbegin
  rw [hbegin, (hsend (beginStart (s.putEnv e) n) rfl).1]
  exact List.append_assoc _ _ _

/-! ## Every operation -/

/-- WRRUN of no code is refused. -/
theorem exec_wrrun_ne_nil {d : Digit} {vs : List Byte} {s t : State} (h : exec (.wrrun d vs) s = .next t) : vs ≠ [] := by
  rintro rfl
  cases hready : s.ctl.init with
  | false => cases (whenReady_notReady hready _).symm.trans h
  | true =>
    cases hmode : s.cfg.mode with
    | fixed => cases (exec_wrrun_fixed hready hmode d []).symm.trans h
    | autoIncrement => cases (exec_wrrun_outOfBounds hready hmode (d := d) (.inl rfl)).symm.trans h

/-- What a host operation sends is read the same whatever the answers. -/
theorem exec_readsAs {i : Instr} {s t : State} (hhost : isHostOp i = true) (h : exec i s = .next t) :
    ∃ lists bytes, ReadsAs (opList i s) s lists bytes := by
  have sent : ∀ {ms}, (∃ txs, Emits s.cfg.tBit ms txs) → ∃ lists bytes, ReadsAs ms s lists bytes :=
    fun ⟨_, htxs⟩ => ⟨_, _, htxs.readsAs⟩
  cases i with
  | wAuto | wFixed | wOff => cases hhost
  | wOn _ | wAddr _ | wData _ => cases hhost
  | start => exact ⟨[], [], readsAs_of_trace fun e => ⟨startEvents, by rw [opList, runAll_startList, putEnv_trace], rfl, rfl⟩⟩
  | stop => exact ⟨[], [], readsAs_of_trace fun e => ⟨stopEvents, by rw [opList, runAll_stopList, putEnv_trace], rfl, rfl⟩⟩
  | wrbyte v =>
    refine ⟨[], [v], readsAs_of_trace fun e => ⟨byteEvents s.cfg.tBit v e.peek, ?_, ?_⟩⟩
    · rw [opList, runAll_wrbyteList, runAll_byteList]
      rfl
    · obtain ⟨hlists, hbytes⟩ := read_byteEvents v s.cfg.tBit e.peek
      exact ⟨hlists, by rw [hbytes]; rfl⟩
  | bitdelay => exact ⟨[], [], readsAs_of_trace fun e => ⟨[.dly s.cfg.tBit], rfl, rfl, rfl⟩⟩
  | lookup idx => exact ⟨[], [], readsAs_of_trace fun e => ⟨[], (List.append_nil _).symm, rfl, rfl⟩⟩
  | sendcmd c => exact sent ⟨_, emits_sendcmd c⟩
  | wrdigit d v => exact sent ⟨_, emits_of_sends fun u => (sends_wrdigit u s.cfg d v).1⟩
  | wrrun d vs => exact sent ⟨_, emits_of_sends fun u => (sends_wrrun u s.cfg d vs (exec_wrrun_ne_nil h)).1⟩
  | beginDisp n b => exact readsAs_begin s n b
  | dispoff => exact sent ⟨_, emits_sendcmd dispOff⟩
  | dispclear => exact sent (emits_dispclear s.cfg s.ctl.nd s.ctl.qk)
  | dispbright l => exact sent ⟨_, emits_dispbright l⟩
  | dispchar d v raw => exact sent ⟨_, emits_show s.cfg _ (List.cons_ne_nil _ _)⟩
  | dispint8 st v dec => exact sent (emits_field s.cfg s.ctl.nd two_ne_zero st dec _)
  | dispint12 st v dec => exact sent (emits_field s.cfg s.ctl.nd three_ne_zero st dec _)
  | dispint16 st v dec => exact sent (emits_field s.cfg s.ctl.nd four_ne_zero st dec _)
  | dispdp on => exact sent (emits_dispdp s.cfg s.ctl.qk on)
  | disptest on => exact sent (emits_disptest s.cfg s.ctl on)

/-- Settles O53: both runs run the same list, which reads the same with any answers, and no entry hands an answer on. -/
theorem answersNeverChangeWhatIsSent : Obligations.AnswersNeverChangeWhatIsSent := by
  intro i s t t' e h h'
  rcases exec_runs h with ⟨hhost, rfl⟩ | ⟨hwire, w, rfl⟩
  · have ht' : t' = runAll (opList i s) (s.putEnv e) := exec_eq_runAll_opList hhost h'
    obtain ⟨lists, bytes, hread⟩ := exec_readsAs hhost h
    obtain ⟨hlists, hbytes⟩ := hread s.env
    obtain ⟨hlists', hbytes'⟩ := hread e
    obtain ⟨-, hctl, hdaddr, hdirr⟩ := runAll_sameBut (opList i s) (s := s) (t := s.putEnv e) ⟨rfl, rfl, rfl, rfl⟩
    rw [ht']
    exact ⟨hlists.trans hlists'.symm, hbytes.trans hbytes'.symm, hctl, hdaddr, hdirr⟩
  · obtain ⟨w', ht'⟩ := exec_wire (by simp [hwire]) h'
    rw [ht']
    exact ⟨rfl, rfl, rfl, rfl, rfl⟩

end Sys2Proof.Machine
end

section
/-! What the device holds after acknowledged operations (R69, R76, R223): an addressed code at its index, the shadow after the
display operations, DISPTEST and BEGIN, and the digits that are not configured. -/

namespace Sys2Proof.Machine

/-! ## Acknowledged transactions -/

/-- A script of low answers answers low. -/
theorem answersFor_of_script {e : Env} {k : Nat} {rest : List Level} (h : e.answers = List.replicate k .low ++ rest) :
    e.answersFor k = List.replicate k .low := by
  induction k generalizing e with
  | zero => rfl
  | succ k ih =>
    have hpeek : e.peek = .low := by simp [Env.peek, h, List.replicate_succ]
    have hadvance : e.advance.answers = List.replicate k .low ++ rest := by simp [Env.advance, h, List.replicate_succ]
    rw [Env.answersFor, hpeek, ih hadvance, List.replicate_succ]

theorem Responsive.no_high {k : Nat} {s : State} (h : Responsive k s) : .high ∉ s.env.answersFor k := by
  obtain ⟨rest, hrest⟩ := h
  rw [answersFor_of_script hrest]
  simp

/-- Transactions sent to a responsive device from an idle bus are taken by it one after another. -/
theorem Sends.settled_of_responsive {s t : State} {txs : List (List Byte)} (h : Sends s t txs) (hbus : BusIdle s)
    (hresponsive : Responsive txs.flatten.length s) (hne : ∀ tx ∈ txs, tx ≠ []) :
    t.wire.settled = s.wire.settled.takeAll txs := by
  obtain ⟨hclosed, hdriven⟩ := hbus
  rw [h.wire ⟨hclosed, hdriven⟩]
  exact (sentWire_acked txs s.wire s.env hclosed hne hresponsive.no_high).2

theorem Device.takeAll_append (d : Device) (xs ys : List (List Byte)) : d.takeAll (xs ++ ys) = (d.takeAll xs).takeAll ys :=
  List.foldl_append

theorem Device.takeAll_command (d : Device) (c : Byte) : d.takeAll [[c]] = d.take c [] := rfl

/-- The mode command and an addressed code, under Fixed: the code is stored at the index (R69). -/
theorem Device.takeAll_wrdigit (d : Device) (p : Digit) (v : Byte) :
    (d.takeAll [[0x44], [0xC0 + digitByte p, v]]).mem = d.mem.write p.val v := by
  show ((d.take 0x44 []).take (0xC0 + digitByte p) [v]).mem = _
  rw [take_addr, take_fixed]
  rfl

/-- The mode command and a burst, under AutoIncrement: the codes are stored one after another (R69). -/
theorem Device.takeAll_wrrun (d : Device) (p : Digit) {vs : List Byte} (h : p.val + vs.length ≤ 4) (a : Nat) :
    (d.takeAll [[0x40], (0xC0 + digitByte p) :: vs]).mem.read a =
      if p.val ≤ a ∧ a < p.val + vs.length then vs[a - p.val]? else d.mem.read a := by
  show ((d.take 0x40 []).take (0xC0 + digitByte p) vs).mem.read a = _
  rw [take_addr, take_auto]
  exact takeData_auto vs _ p rfl rfl h a

/-- Settles O43: the two transactions of WRDIGIT are taken, and they write one address. -/
theorem wrdigitStoresAtThePhysicalIndex : Obligations.WrdigitStoresAtThePhysicalIndex := by
  intro d v s hready hmode hbus hresponsive
  obtain ⟨t, hexec, hsends, -⟩ := wrdigitSendsModeThenAddressedCode d v s hready hmode
  refine ⟨t, hexec, fun a => ?_⟩
  rw [hsends.settled_of_responsive hbus hresponsive (by simp), Device.takeAll_wrdigit, Memory.read_write]

/-- Settles O44: the two transactions of WRRUN are taken, and they write the addresses of the run. -/
theorem wrrunStoresAtConsecutiveAddresses : Obligations.WrrunStoresAtConsecutiveAddresses := by
  intro d vs s hready hmode hpos hend hbus hresponsive
  obtain ⟨t, hexec, hsends, -⟩ := wrrunSendsModeThenBurst d vs s hready hmode hpos hend
  have hlen : ([[0x40], (0xC0 + digitByte d) :: vs] : List (List Byte)).flatten.length = vs.length + 2 := by simp
  refine ⟨t, hexec, fun a => ?_⟩
  rw [hsends.settled_of_responsive hbus (hlen ▸ hresponsive) (by simp)]
  exact Device.takeAll_wrrun _ d hend a

/-! ## Shown slots -/

/-- The multiplexer of a legal build, as the lemmas on XFER ask for it. -/
theorem phys_injective_of_wf {cfg : Config} (h : cfg.wf = true) : ∀ a b, phys cfg a = phys cfg b → a = b :=
  fun _ _ hab => phys_injective (Config.mapWf_of_wf h) hab

theorem Pins.driven_iff {p : Pins} : p.driven = true ↔ p.dirr.clk = .out ∧ p.dirr.dio = .out := by
  simp [Pins.driven]

/-- A ready state that meets the invariant drives both wires (R37). -/
theorem Inv.driven {s : State} (h : Inv s) (hready : s.ctl.init = true) : s.pins.driven = true :=
  Pins.driven_iff.mpr (h.outputs hready)

/-- Showing slots leaves output pins outputs. -/
theorem Shown.driven {s t : State} (h : Shown s t) (hdriven : s.pins.driven = true) : t.pins.driven = true := by
  induction h with
  | nothing => exact hdriven
  | slot _ hshows _ ih => exact ih (hshows.sends.driven hdriven)

/-- Slots shown with every byte acknowledged keep the agreement of every digit, and the device's digits that are not
configured. -/
theorem Shown.agree {s t : State} (h : Shown s t) (hinj : ∀ a b, phys s.cfg a = phys s.cfg b → a = b)
    (hdriven : s.pins.driven = true) (hclosed : s.wire.bus = .closed) (hnak : t.eng.nak = false) :
    s.eng.nak = false ∧ (∀ e, Agree s e → Agree t e) ∧
      ∀ e : Digit, s.ctl.nd.toNat ≤ e.val → s.ctl.qk = false →
        t.wire.settled.mem.read (phys s.cfg e).val = s.wire.settled.mem.read (phys s.cfg e).val := by
  induction h with
  | nothing => exact ⟨hnak, fun _ => id, fun _ _ _ => rfl⟩
  | slot hok hshows _ ih =>
    have hcfg := hshows.sends.cfg
    have hctl := hshows.sends.ctl
    simp only [putCtl_cfg, putCtl_ctl] at hcfg hctl
    obtain ⟨hdriven', hclosed'⟩ := hshows.closed hdriven hclosed
    rw [hcfg, hctl] at ih
    obtain ⟨hnak', hagree', hunused'⟩ := ih hinj hdriven' hclosed' hnak
    obtain ⟨hnak'', -, hagree, hother⟩ := hshows.agree hinj hdriven hclosed hok.fits hnak'
    refine ⟨hnak'', fun e he => hagree' e (hagree e (.inl he)), fun e he hqk => ?_⟩
    rw [hunused' e he hqk]
    refine hother e fun hin => ?_
    obtain ⟨-, ⟨hfits, -⟩ | ⟨hqk', -⟩⟩ := hok
    · omega
    · rw [hqk] at hqk'
      cases hqk'

theorem shadowAgrees_iff {s : State} :
    ShadowAgrees s ↔ (∀ d : Digit, d.val < s.ctl.nd.toNat → Agree s d) ∧ (s.ctl.qk = true → Agree s 3) := Iff.rfl

/-! ## Commands -/

/-- DISPOFF and DISPBRIGHT send a command, which the device's memory does not notice. -/
theorem settled_mem_of_command {s t : State} {c : Byte} (h : Sends s t [[c]]) (hdriven : s.pins.driven = true)
    (hclosed : s.wire.bus = .closed) (hnak : t.eng.nak = false) (hmem : ∀ d : Device, (d.take c []).mem = d.mem) :
    t.wire.settled.mem = s.wire.settled.mem := by
  obtain ⟨-, -, hsettled⟩ := h.acked hdriven hclosed (by simp) hnak
  rw [hsettled]
  exact hmem s.wire.settled

theorem take_onByte_mem (l : BitVec 3) (d : Device) : (d.take (onByte l) []).mem = d.mem := by rw [take_on]

theorem take_dispOff_mem (d : Device) : (d.take 0x80 []).mem = d.mem := rfl

/-- The device's memory, the build and `DR` as before are all that agreement looks at. -/
theorem ShadowAgrees.of_same {s t : State} (h : ShadowAgrees s) (hmem : t.wire.settled.mem = s.wire.settled.mem)
    (hcfg : t.cfg = s.cfg) (hnd : t.ctl.nd = s.ctl.nd) (hqk : t.ctl.qk = s.ctl.qk) (hdr : t.ctl.dr = s.ctl.dr) :
    ShadowAgrees t := by
  rw [ShadowAgrees, hmem, hcfg, hnd, hqk, hdr]
  exact h

theorem isHostOp_of_keepsShadow {i : Instr} (h : keepsShadow i = true) : isHostOp i = true := by
  cases i with
  | wAuto | wFixed | wOff => cases h
  | wOn _ | wAddr _ | wData _ => cases h
  | _ => rfl

/-- An operation of R76 completes in a ready state only, and shows slots or sends a command that leaves the device's memory, the
build and `DR`. -/
theorem keepsShadow_cases {i : Instr} {s t : State} (hwf : s.cfg.wf = true) (hkeeps : keepsShadow i = true)
    (h : exec i s = .next t) :
    s.ctl.init = true ∧
      (Shown s t ∨ ∃ c l, Sends (s.putCtl { s.ctl with br := l }) t [[c]] ∧ ∀ d : Device, (d.take c []).mem = d.mem) := by
  rcases exec_cases hwf (isHostOp_of_keepsShadow hkeeps) h with
    hraw | ⟨n, b, rfl⟩ | ⟨-, hready, hshown, -⟩ | ⟨hready, l, -, hsends⟩ | ⟨hready, honly, txs, hsends, htxs⟩
  · rcases hraw with rfl | rfl | ⟨v, rfl⟩ | rfl | ⟨v, rfl⟩ <;> cases hkeeps
  · cases hkeeps
  · exact ⟨hready, .inl hshown⟩
  · exact ⟨hready, .inr ⟨_, _, hsends, take_onByte_mem _⟩⟩
  · rcases honly with ⟨c, rfl⟩ | ⟨d, v, rfl⟩ | ⟨d, vs, rfl⟩ | rfl | ⟨on, rfl⟩
    · cases hkeeps
    · cases hkeeps
    · cases hkeeps
    · rw [htxs rfl] at hsends
      exact ⟨hready, .inr ⟨0x80, s.ctl.br, hsends, take_dispOff_mem⟩⟩
    · cases hkeeps

/-- Settles O55: slots shown keep every digit's agreement, and a command leaves both sides as they are. -/
theorem displayOperationsKeepShadowAgreement : Obligations.DisplayOperationsKeepShadowAgreement := by
  intro i s t hinv hready hclosed hshadow hkeeps h hnak
  have hdriven := hinv.driven hready
  obtain ⟨-, hshown | ⟨c, l, hsends, hmem⟩⟩ := keepsShadow_cases hinv.cfgLegal hkeeps h
  · obtain ⟨-, hagree, -⟩ := hshown.agree (phys_injective_of_wf hinv.cfgLegal) hdriven hclosed hnak
    obtain ⟨-, hnd, hqk, -, -⟩ := hshown.ctl
    obtain ⟨hconfigured, hpoint⟩ := shadowAgrees_iff.mp hshadow
    refine shadowAgrees_iff.mpr ⟨fun d hd => hagree d (hconfigured d (hnd ▸ hd)), fun hq => hagree 3 (hpoint (hqk ▸ hq))⟩
  · have hsettled := settled_mem_of_command hsends hdriven hclosed hnak hmem
    have hctl : t.ctl = { s.ctl with br := l } := hsends.ctl
    exact hshadow.of_same hsettled hsends.cfg (by rw [hctl]) (by rw [hctl]) (by rw [hctl])

/-! ## DISPTEST -/

/-- What XFER from digit 0 on, and of digit 3 alone with the quirk, makes of the device. -/
theorem takeAll_xfer_point {cfg : Config} (hinj : ∀ a b, phys cfg a = phys cfg b → a = b) {vs : List Byte} (hlen : vs.length ≤ 4)
    (qk : Bool) (c : Byte) (dev : Device) (e : Digit) :
    (dev.takeAll (xferTransactions cfg 0 vs ++ (if qk = true then xferTransactions cfg 3 [c] else []))).mem.read
        (phys cfg e).val =
      if qk = true ∧ e = 3 then some c else if e.val < vs.length then some (vs.getD e.val 0)
      else dev.mem.read (phys cfg e).val := by
  rw [Device.takeAll_append]
  have hfirst := takeAll_xfer cfg hinj 0 vs (by simpa using hlen) dev e
  simp only [Fin.val_zero, Nat.zero_le, true_and, Nat.zero_add, Nat.sub_zero] at hfirst
  cases qk with
  | false => simpa [Device.takeAll] using hfirst
  | true =>
    rw [if_pos rfl, takeAll_xfer cfg hinj 3 [c] (by simp), hfirst]
    by_cases he : e = 3
    · subst he
      simp
    · have hval : e.val ≠ 3 := fun hval => he (Fin.ext hval)
      have hnot : ¬((3 : Digit).val ≤ e.val ∧ e.val < (3 : Digit).val + [c].length) := by
        have hlt := e.isLt
        have hthree : (3 : Digit).val = 3 := rfl
        omega
      rw [if_neg hnot, if_neg fun h : true = true ∧ e = 3 => he h.2]

/-- It leaves the device in the build's mode. -/
theorem takeAll_xfer_point_mode (cfg : Config) {vs : List Byte} (hvs : vs ≠ []) (qk : Bool) (c : Byte) (dev : Device) :
    (dev.takeAll (xferTransactions cfg 0 vs ++ (if qk = true then xferTransactions cfg 3 [c] else []))).mode = some cfg.mode := by
  rw [Device.takeAll_append]
  cases qk with
  | false => exact takeAll_xfer_mode cfg 0 vs hvs dev
  | true => exact takeAll_xfer_mode cfg 3 [c] (List.cons_ne_nil _ _) _

theorem xfer_point_nonempty (cfg : Config) (vs : List Byte) (qk : Bool) (c : Byte) :
    ∀ tx ∈ xferTransactions cfg 0 vs ++ (if qk = true then xferTransactions cfg 3 [c] else []), tx ≠ [] := by
  intro tx htx
  rcases List.mem_append.mp htx with htx | htx
  · exact xferTransactions_nonempty cfg 0 vs tx htx
  · split_ifs at htx
    · exact xferTransactions_nonempty cfg 3 [c] tx htx
    · cases htx

/-- With every byte of DISPTEST acknowledged the device holds its codes, and what it held elsewhere. -/
theorem settled_disptest {s : State} (hwf : s.cfg.wf = true) (hdriven : s.pins.driven = true) (hclosed : s.wire.bus = .closed)
    {on : Bool} (hnak : (runAll (disptestList s.cfg s.ctl on) s).eng.nak = false) (e : Digit) :
    (runAll (disptestList s.cfg s.ctl on) s).wire.settled.mem.read (phys s.cfg e).val =
      if s.ctl.qk = true ∧ e = 3 then some (testPoint s.cfg s.ctl on)
      else if e.val < s.ctl.nd.toNat then some ((testCodes s.ctl on).getD e.val 0)
      else s.wire.settled.mem.read (phys s.cfg e).val := by
  have hlen : (testCodes s.ctl on).length = s.ctl.nd.toNat := by
    cases on
    · exact (shownCodes_get s.ctl.nd s.ctl.dr).1
    · exact List.length_replicate
  obtain ⟨-, -, hsettled⟩ := (sends_disptest s on).acked hdriven hclosed (xfer_point_nonempty _ _ _ _) hnak
  have hnd := digitCount_bounds s.ctl.nd
  rw [hsettled, takeAll_xfer_point (phys_injective_of_wf hwf) (by omega), hlen]

/-- A completed DISPTEST has run its list. -/
theorem exec_disptest_runs {s t : State} {on : Bool} (h : exec (.disptest on) s = .next t) :
    t = runAll (disptestList s.cfg s.ctl on) s := exec_eq_runAll_opList (i := .disptest on) rfl h

/-- Settles O56: DISPTEST false sends every configured digit's byte of `DR`, and slot 3's with the quirk. -/
theorem testOffRestoresShadowAgreement : Obligations.TestOffRestoresShadowAgreement := by
  intro s t hinv hready hclosed h hnak
  have ht := exec_disptest_runs h
  subst ht
  have hsettled := settled_disptest hinv.cfgLegal (hinv.driven hready) hclosed hnak
  have hsends := sends_disptest s false
  refine shadowAgrees_iff.mpr ?_
  simp only [Agree, hsends.cfg, hsends.ctl, hsettled]
  refine ⟨fun d hd => ?_, fun hqk => ?_⟩
  · by_cases hpoint : s.ctl.qk = true ∧ d = 3
    · rw [if_pos hpoint, hpoint.2]
      rfl
    · rw [if_neg hpoint, if_pos hd]
      exact congrArg some ((shownCodes_get s.ctl.nd s.ctl.dr).2 d hd)
  · rw [hqk, if_pos ⟨rfl, trivial⟩]
    rfl

/-! ## BEGIN -/

/-- The state in which BEGIN starts to send drives both wires, and its bus is closed if it was. -/
theorem beginStart_driven (s : State) (n : Byte) : (beginStart s n).pins.driven = true := rfl

theorem beginStart_closed {s : State} (h : s.wire.bus = .closed) (n : Byte) : (beginStart s n).wire.bus = .closed := by
  show (s.wire.glitch s.pins.driven).bus = .closed
  unfold Wire.glitch
  split_ifs
  · exact h
  · rfl

/-- With every byte of a BEGIN acknowledged, from a closed bus: the device holds blanks, the point off with the quirk, what it
held elsewhere when BEGIN started to send, and is in the build's mode, on, and at the level. -/
theorem settled_begin {s : State} (hwf : s.cfg.wf = true) (hclosed : s.wire.bus = .closed) {n b : Byte}
    (hnak : (runAll (beginList s.cfg n b) s).eng.nak = false) :
    (∀ e : Digit, (runAll (beginList s.cfg n b) s).wire.settled.mem.read (phys s.cfg e).val =
      if quirkFlag s.cfg (requestedCount n) = true ∧ e = 3 then some 0x00
      else if e.val < (requestedCount n).toNat then some 0x00
      else (beginStart s n).wire.settled.mem.read (phys s.cfg e).val) ∧
    (runAll (beginList s.cfg n b) s).wire.settled.mode = some s.cfg.mode ∧
    (runAll (beginList s.cfg n b) s).wire.settled.on = some true ∧
    (runAll (beginList s.cfg n b) s).wire.settled.br = some (levelBits b) := by
  obtain ⟨dr, -, hsends, -⟩ := sends_begin n b s
  have hnd := digitCount_bounds (requestedCount n)
  have hne : ∀ tx ∈ xferTransactions s.cfg 0 (List.replicate (requestedCount n).toNat 0x00) ++
      (if quirkFlag s.cfg (requestedCount n) = true then xferTransactions s.cfg 3 [0x00] else []) ++
      [[onByte (levelBits b)]], tx ≠ [] := by
    intro tx htx
    rcases List.mem_append.mp htx with htx | htx
    · exact xfer_point_nonempty s.cfg _ _ _ tx htx
    · rw [List.mem_singleton.mp htx]
      exact List.cons_ne_nil _ _
  obtain ⟨-, -, hsettled⟩ := hsends.acked (beginStart_driven s n) (beginStart_closed hclosed n) hne hnak
  rw [putCtl_wire, Device.takeAll_append, Device.takeAll_command, take_on] at hsettled
  rw [hsettled]
  refine ⟨fun e => ?_, takeAll_xfer_point_mode s.cfg (replicate_ne_nil _ _) _ _ _, rfl, rfl⟩
  have hread := takeAll_xfer_point (phys_injective_of_wf hwf) (vs := List.replicate (requestedCount n).toNat 0x00)
    (by rw [List.length_replicate]; exact hnd.2) (quirkFlag s.cfg (requestedCount n)) 0x00 (beginStart s n).wire.settled e
  rw [hread, List.length_replicate]
  simp

/-- Without a drive of both wires nothing has reached the device (log entry 8), so BEGIN, which loses it then, finds in its memory
what was there before. -/
theorem beginStart_mem {s : State} (hinv : Inv s) (n : Byte) : (beginStart s n).wire.settled.mem = s.wire.settled.mem := by
  show (s.wire.glitch s.pins.driven).settled.mem = _
  cases hdriven : s.pins.driven with
  | true => rfl
  | false =>
    obtain ⟨hdev, hcur, hrx⟩ := hinv.unreached hdriven
    rw [Wire.settled, Wire.settled, hdev, hcur, hrx]
    rfl

/-- A completed BEGIN has run its list. -/
theorem exec_begin_runs {s t : State} {n b : Byte} (h : exec (.beginDisp n b) s = .next t) :
    t = runAll (beginList s.cfg n b) s := exec_eq_runAll_opList (i := .beginDisp n b) rfl h

/-- From a closed bus an acknowledged BEGIN establishes agreement. -/
theorem begin_agrees {s : State} (hwf : s.cfg.wf = true) (hclosed : s.wire.bus = .closed) {n b : Byte}
    (hnak : (runAll (beginList s.cfg n b) s).eng.nak = false) :
    ShadowAgrees (runAll (beginList s.cfg n b) s) := by
  obtain ⟨hmem, -⟩ := settled_begin hwf hclosed hnak
  refine shadowAgrees_iff.mpr ?_
  simp only [Agree, runAll_cfg, begin_ctl, hmem]
  refine ⟨fun d hd => ?_, fun hqk => ?_⟩
  · rw [beginDigits_configured _ _ hd, if_pos hd, ite_self]
  · rw [hqk, beginDigits_point, if_pos ⟨rfl, trivial⟩]

/-- Settles O54: an open transaction is lost at BEGIN's START, so the bus may be taken to be closed. -/
theorem beginEstablishesShadowAgreement : Obligations.BeginEstablishesShadowAgreement := by
  intro n b s t hwf h hnak
  have closed : ∀ {s : State}, s.cfg.wf = true → s.wire.bus = .closed → (runAll (beginList s.cfg n b) s).eng.nak = false →
      ShadowAgrees (runAll (beginList s.cfg n b) s) ∧
      (runAll (beginList s.cfg n b) s).wire.settled.mode = some s.cfg.mode ∧
      (runAll (beginList s.cfg n b) s).wire.settled.on = some true ∧
      (runAll (beginList s.cfg n b) s).wire.settled.br = some (levelBits b) :=
    fun hwf hclosed hnak => ⟨begin_agrees hwf hclosed hnak, (settled_begin hwf hclosed hnak).2⟩
  rw [exec_begin_runs h] at hnak ⊢
  cases hbus : s.wire.bus with
  | closed => exact closed hwf hbus hnak
  | opened bs =>
    rw [runAll_beginList_opened hbus] at hnak ⊢
    exact closed (s := s.putWire .lost) hwf rfl hnak

/-! ## Digits that are not configured -/

/-- Settles O57: none of the operations sends anything to a digit at or above the count, and a BEGIN with a pin that is no output
finds a device nothing has reached. -/
theorem staleDigitsAreNeverWritten : Obligations.StaleDigitsAreNeverWritten := by
  intro i s t e hinv hready hclosed hi h hnak he hqk
  have hinj := phys_injective_of_wf hinv.cfgLegal
  rcases hi with hkeeps | htest | hbegin
  · obtain ⟨hinit, hcases⟩ := keepsShadow_cases hinv.cfgLegal hkeeps h
    have hdriven := hinv.driven hinit
    rcases hcases with hshown | ⟨c, l, hsends, hmem⟩
    · obtain ⟨-, hnd, hq, -, -⟩ := hshown.ctl
      obtain ⟨-, -, hunused⟩ := hshown.agree hinj hdriven hclosed hnak
      exact hunused e (hnd ▸ he) (hq ▸ hqk)
    · rw [settled_mem_of_command hsends hdriven hclosed hnak hmem]
      rfl
  · cases i with
    | disptest on =>
      have hdriven := hinv.driven (hready.resolve_right (by simp [Instr.mnemonic]))
      have ht := exec_disptest_runs h
      subst ht
      rw [(sends_disptest s on).ctl] at he hqk
      rw [settled_disptest hinv.cfgLegal hdriven hclosed hnak, if_neg (by simp [hqk]), if_neg (Nat.not_lt.mpr he)]
    | _ => simp [Instr.mnemonic] at htest
  · cases i with
    | beginDisp n b =>
      have ht := exec_begin_runs h
      subst ht
      simp only [begin_ctl] at he hqk
      obtain ⟨hmem, -⟩ := settled_begin hinv.cfgLegal hclosed hnak
      rw [hmem, if_neg (by simp [hqk]), if_neg (Nat.not_lt.mpr he), beginStart_mem hinv]
    | _ => simp [Instr.mnemonic] at hbegin

end Sys2Proof.Machine
end

section
/-! The invariant of a run (R24, R26, R28, R37; log entries 2, 8, 18): its part on the controller, its part on a device not reached,
and that every step keeps it. -/

namespace Sys2Proof.Machine

/-! ## The controller's part -/

/-- What the invariant says of the controller once it is ready. -/
structure ControllerOk (cfg : Config) (c : Controller) : Prop where
  quirk : c.qk = true → c.nd = .three
  segments : ∀ d : Digit, d.val < c.nd.toNat → (c.dr.get d).toNat < 0x80
  point : c.qk = true → c.dr.d3 = cfg.dpOnCode ∨ c.dr.d3 = dpOffCode

theorem Inv.controllerOk {s : State} (h : Inv s) (hready : s.ctl.init = true) : ControllerOk s.cfg s.ctl :=
  ⟨h.quirk hready, h.segments hready, h.point hready⟩

/-- Codes that fit the configured digits, or the point's at digit 3, keep the controller's part (R26, R28). -/
theorem ControllerOk.setRun {s : State} (h : ControllerOk s.cfg s.ctl) {d : Digit} {vs : List Byte} (hok : SlotOk s d vs) :
    ControllerOk s.cfg { s.ctl with dr := Quad.setRun s.ctl.dr d vs } := by
  have hget := Quad.get_setRun vs s.ctl.dr d hok.fits
  obtain ⟨-, ⟨hfits, hcodes⟩ | ⟨hqk, rfl, c, rfl, hc⟩⟩ := hok
  · refine ⟨h.quirk, fun e he => ?_, fun hqk => ?_⟩
    · dsimp only
      rw [hget e]
      split_ifs with hin
      · rw [List.getD_eq_getElem _ _ (by omega)]
        exact hcodes _ (List.getElem_mem _)
      · exact h.segments e he
    · have hthree : (3 : Digit).val = 3 := rfl
      have hnd : s.ctl.nd.toNat = 3 := by rw [h.quirk hqk]; rfl
      have hold : (Quad.setRun s.ctl.dr d vs).get 3 = s.ctl.dr.get 3 := by rw [hget 3, if_neg (by omega)]
      have hpoint : (Quad.setRun s.ctl.dr d vs).d3 = s.ctl.dr.d3 := hold
      rw [hpoint]
      exact h.point hqk
  · refine ⟨h.quirk, fun e he => ?_, fun _ => hc⟩
    have hthree : (3 : Digit).val = 3 := rfl
    have hnd : s.ctl.nd.toNat = 3 := by rw [h.quirk hqk]; rfl
    dsimp only at he ⊢
    rw [hget e, if_neg (by omega)]
    exact h.segments e he

/-- Showing slots keeps it. -/
theorem Shown.controllerOk {s t : State} (h : Shown s t) (hok : ControllerOk s.cfg s.ctl) : ControllerOk t.cfg t.ctl := by
  induction h with
  | nothing => exact hok
  | slot hslot hshows _ ih =>
    refine ih ?_
    rw [hshows.sends.cfg, hshows.sends.ctl]
    exact hok.setRun hslot

/-- BEGIN establishes it. -/
theorem controllerOk_begin (n b : Byte) (s : State) :
    ControllerOk (runAll (beginList s.cfg n b) s).cfg (runAll (beginList s.cfg n b) s).ctl := by
  rw [begin_ctl]
  refine ⟨fun hqk => ?_, fun d hd => ?_, fun hqk => .inr ?_⟩
  · rw [quirkFlag, Bool.and_eq_true, decide_eq_true_eq] at hqk
    exact hqk.2
  · rw [beginDigits_configured _ _ hd]
    decide
  · dsimp only at hqk ⊢
    rw [hqk]
    exact beginDigits_point _ _

/-! ## A device not reached -/

/-- Nothing has reached the device. -/
def Wire.Unreached (w : Wire) : Prop := w.dev = .unknown ∧ w.cur = [] ∧ w.rx = []

theorem Wire.unreached_lost : Wire.lost.Unreached := ⟨rfl, rfl, rfl⟩

/-- A raw operation that ends with a pin that is no output has begun with one, and then nothing reaches the device. -/
theorem exec_raw_unreached {i : Instr} {s t : State} (h : exec i s = .next t)
    (hi : i = .start ∨ i = .stop ∨ (∃ v, i = .wrbyte v) ∨ i = .bitdelay ∨ ∃ v, i = .lookup v)
    (hs : s.pins.driven = false → s.wire.Unreached) (ht : t.pins.driven = false) : t.wire.Unreached := by
  obtain ⟨-, -, -, hclk, hdio⟩ := exec_raw h hi
  have hdriven : s.pins.driven = false := by
    by_contra hd
    obtain ⟨hsclk, hsdio⟩ := Pins.driven_iff.mp (Bool.eq_true_of_not_eq_false hd)
    rw [Pins.driven_iff.mpr ⟨hclk.trans hsclk, hdio hsdio⟩] at ht
    cases ht
  rcases hi with rfl | rfl | ⟨v, rfl⟩ | rfl | ⟨v, rfl⟩ <;> injection h with h <;> rw [← h]
  · rw [runAll_startList, hdriven]
    exact Wire.unreached_lost
  · rw [runAll_stopList, hdriven]
    exact Wire.unreached_lost
  · rw [runAll_wrbyteList, runAll_byteList, hdriven]
    exact Wire.unreached_lost
  · exact hs hdriven
  · exact hs hdriven

/-! ## Host operations -/

/-- The invariant after a list, from its parts that a list could break. -/
theorem Inv.of_runAll {s : State} (h : Inv s) {ms : List Micro}
    (houtputs : (runAll ms s).ctl.init = true → (runAll ms s).pins.driven = true)
    (hctl : (runAll ms s).ctl.init = true → ControllerOk (runAll ms s).cfg (runAll ms s).ctl)
    (hunreached : (runAll ms s).pins.driven = false → (runAll ms s).wire.Unreached) : Inv (runAll ms s) where
  cfgLegal := by rw [runAll_cfg]; exact h.cfgLegal
  idle := (runAll_seq ms s).trans h.idle
  outputs := fun hready => Pins.driven_iff.mp (houtputs hready)
  quirk := fun hready => (hctl hready).quirk
  segments := fun hready => (hctl hready).segments
  point := fun hready => (hctl hready).point
  memory := runAll_mem_wf ms s h.memory
  unreached := hunreached

/-- A list that ends with both pins outputs and the controller in order keeps the invariant. -/
theorem Inv.of_driven {s t : State} (h : Inv s) {ms : List Micro} (ht : t = runAll ms s) (hdriven : t.pins.driven = true)
    (hctl : ControllerOk t.cfg t.ctl) : Inv t := by
  subst ht
  refine h.of_runAll (fun _ => hdriven) (fun _ => hctl) fun hd => ?_
  rw [hdriven] at hd
  cases hd

/-- A completed host operation keeps the invariant. -/
theorem exec_keeps_inv {i : Instr} {s t : State} (h : Inv s) (hhost : isHostOp i = true) (hexec : exec i s = .next t) :
    Inv t := by
  have ht := exec_eq_runAll_opList hhost hexec
  rcases exec_cases h.cfgLegal hhost hexec with
    hraw | ⟨n, b, rfl⟩ | ⟨-, hready, hshown, -⟩ | ⟨hready, l, -, hsends⟩ | ⟨hready, -, txs, hsends, -⟩
  · obtain ⟨hctl, hcfg, -, hclk, hdio⟩ := exec_raw hexec hraw
    have hunreached := exec_raw_unreached hexec hraw h.unreached
    rw [ht] at hctl hcfg hclk hdio hunreached ⊢
    refine h.of_runAll (fun hready => ?_) (fun hready => ?_) hunreached
    · obtain ⟨hsclk, hsdio⟩ := h.outputs (hctl ▸ hready)
      exact Pins.driven_iff.mpr ⟨hclk.trans hsclk, hdio hsdio⟩
    · rw [hcfg, hctl]
      exact h.controllerOk (hctl ▸ hready)
  · obtain ⟨dr, -, hsends, -⟩ := sends_begin n b s
    exact h.of_driven ht (ht ▸ hsends.driven rfl) (ht ▸ controllerOk_begin n b s)
  · exact h.of_driven ht (hshown.driven (h.driven hready)) (hshown.controllerOk (h.controllerOk hready))
  · refine h.of_driven ht (hsends.driven (h.driven hready)) ?_
    rw [hsends.cfg, hsends.ctl]
    exact ⟨h.quirk hready, h.segments hready, h.point hready⟩
  · refine h.of_driven ht (hsends.driven (h.driven hready)) ?_
    rw [hsends.cfg, hsends.ctl]
    exact h.controllerOk hready

/-! ## Every step -/

/-- The invariant says nothing of the ports. -/
theorem Inv.putPort {s : State} (h : Inv s) (p : Port) : Inv (s.putPort p) :=
  ⟨h.cfgLegal, h.idle, h.outputs, h.quirk, h.segments, h.point, h.memory, h.unreached⟩

/-- A change of the wire keeps the invariant when it keeps the memory's form and something has reached the device. -/
theorem Inv.putWire {s : State} (h : Inv s) {w : Wire} (hpending : s.wire.cur ≠ [] ∨ s.wire.rx ≠ [])
    (hmem : w.dev.mem.wf = true) : Inv (s.putWire w) where
  cfgLegal := h.cfgLegal
  idle := h.idle
  outputs := h.outputs
  quirk := h.quirk
  segments := h.segments
  point := h.point
  memory := hmem
  unreached := fun hdriven => by
    obtain ⟨-, hcur, hrx⟩ := h.unreached hdriven
    exact absurd hpending (by simp [hcur, hrx])

/-- Settles O46: a step from an idle state runs nothing, a host operation, or a byte on its way to the device. -/
theorem everyStepKeepsTheInvariant : Obligations.EveryStepKeepsTheInvariant := by
  intro s t h hstep
  rcases step_cases hstep with ⟨i, n, rest, hbusy, -⟩ | ⟨-, rfl⟩ | ⟨-, i, p, hhost, hexec⟩ | ⟨-, hpending, w, rfl, hmem⟩
  · rw [h.idle] at hbusy
    cases hbusy
  · exact h
  · exact exec_keeps_inv (h.putPort p) hhost hexec
  · exact h.putWire hpending (hmem h.memory)

end Sys2Proof.Machine
end
